-- ==== Sys2Proof/Word.lean ====
section
/-! DEFINITION. The machine word: a signed 64-bit integer (rules R10, R11, R14 of 00_scope.md). -/

namespace Sys2Proof

/-- One word: a memory cell, `pc`, `rb`, a queue element (R10, R11). Its value is the signed integer `toInt`, so every
stored value lies in `i64` by its type (R14). No rule of the spec looks at its bits. -/
abbrev Word := BitVec 64

/-- The word that holds the integer `v`; meant for `v` in `i64` only (R14: results are checked before they are
stored). -/
abbrev Word.ofInt (v : Int) : Word := BitVec.ofInt 64 v

end Sys2Proof
end

