-- ==== Sys2Proof/Syntax.lean ====
section
/-! DEFINITION. The instruction set as syntax: one constructor of `Instr` per row of spec/opcode_table.json. -/

namespace Sys2Proof

/-- Parameter modes (R82): 0 Position, 1 Immediate, 2 Relative. -/
inductive Mode where
  | position
  | immediate
  | relative
  deriving DecidableEq, Repr

/-- What an instruction does with a parameter (R19, R92): uses its value, or writes to the address it names. -/
inductive ParamKind where
  | read
  | write
  deriving DecidableEq, Repr

/-- The ten opcodes (R85). -/
inductive Opcode where
  | add
  | mul
  | input
  | output
  | jt
  | jf
  | lt
  | eq
  | arb
  | hlt
  deriving DecidableEq, Repr

/-- A parameter: its mode digit and its literal, the word at pc+1+k (R80, R91). -/
structure Param where
  mode : Mode
  lit : Word
  deriving DecidableEq, Repr

/-- The instructions (R85). The parameters stand in the table's order; `dst` is a write parameter. -/
inductive Instr where
  /-- ADD, opcode 1 (R120) -/
  | add (a b dst : Param)
  /-- MUL, opcode 2 (R121) -/
  | mul (a b dst : Param)
  /-- IN, opcode 3 (R130) -/
  | input (dst : Param)
  /-- OUT, opcode 4 (R131) -/
  | output (a : Param)
  /-- JT, opcode 5 (R140) -/
  | jt (a target : Param)
  /-- JF, opcode 6 (R141) -/
  | jf (a target : Param)
  /-- LT, opcode 7 (R150) -/
  | lt (a b dst : Param)
  /-- EQ, opcode 8 (R151) -/
  | eq (a b dst : Param)
  /-- ARB, opcode 9 (R160) -/
  | arb (a : Param)
  /-- HLT, opcode 99 (R170) -/
  | hlt
  deriving DecidableEq, Repr

/-- The opcode of an instruction. -/
def Instr.opcode : Instr → Opcode
  | .add .. => .add
  | .mul .. => .mul
  | .input .. => .input
  | .output .. => .output
  | .jt .. => .jt
  | .jf .. => .jf
  | .lt .. => .lt
  | .eq .. => .eq
  | .arb .. => .arb
  | .hlt => .hlt

/-- The parameters of an instruction, in order. -/
def Instr.params : Instr → List Param
  | .add a b dst => [a, b, dst]
  | .mul a b dst => [a, b, dst]
  | .input dst => [dst]
  | .output a => [a]
  | .jt a target => [a, target]
  | .jf a target => [a, target]
  | .lt a b dst => [a, b, dst]
  | .eq a b dst => [a, b, dst]
  | .arb a => [a]
  | .hlt => []

/-- How many words an instruction has (R84): one and its parameters. -/
def Instr.length (i : Instr) : Nat := 1 + i.params.length

/-! Operand forms and pseudo-instructions of the spec's assembler (R100, R101): abbreviations, no constructors (log
entry 18). -/

/-- `[n]`, Position (R100). -/
abbrev Param.pos (n : Int) : Param := ⟨.position, Word.ofInt n⟩
/-- `n`, Immediate (R100). -/
abbrev Param.imm (n : Int) : Param := ⟨.immediate, Word.ofInt n⟩
/-- `[rb+n]`, Relative (R100). -/
abbrev Param.rel (n : Int) : Param := ⟨.relative, Word.ofInt n⟩

/-- `MOV a, dst` is `ADD a, 0, dst` (R101). -/
abbrev Instr.mov (a dst : Param) : Instr := .add a (.imm 0) dst
/-- `JMP t` is `JT 1, t` (R101). -/
abbrev Instr.jmp (t : Param) : Instr := .jt (.imm 1) t
/-- `NOP` is `JT 0, 0` (R101). -/
abbrev Instr.nop : Instr := .jt (.imm 0) (.imm 0)

end Sys2Proof
end

