-- ==== Sys2Proof/WellFormed.lean ====
section
/-! DEFINITION. Which terms of `Instr` are instructions of the spec: a write parameter is never Immediate (R83, R95). -/

namespace Sys2Proof

/-- The modes a write parameter may have: Position and Relative (R83, R92, R95). -/
def Param.writeModeOk (p : Param) : Bool := p.mode ≠ .immediate

/-- The one check on an instruction: its destination, where it has one, is not Immediate (R95). Read parameters take
all three modes and literals are any word (R83, R91). -/
def Instr.wellFormed : Instr → Bool
  | .add _ _ dst => dst.writeModeOk
  | .mul _ _ dst => dst.writeModeOk
  | .input dst => dst.writeModeOk
  | .output _ => true
  | .jt _ _ => true
  | .jf _ _ => true
  | .lt _ _ dst => dst.writeModeOk
  | .eq _ _ dst => dst.writeModeOk
  | .arb _ => true
  | .hlt => true

end Sys2Proof
end

