-- ==== Sys2Proof/Decode.lean ====
section
/-! DEFINITION. The decoder (R80 to R91, R95, R99 of 30_encoding.md), total on any words and rejecting by name; after
it the encoder (R102) written from the same tables; last the reading of an opcode-table word. -/

namespace Sys2Proof

/-- Why a word is no instruction. Every one of them is the machine's `InvalidOpcode` (R87, R231), but `noWord` and
`missingLiteral`, which only a list of words can show: the machine's own fetches never run short (R91). -/
inductive DecodeError where
  /-- a negative instruction word (R88) -/
  | negativeWord
  /-- the opcode field is not in the table (R89, R99) -/
  | unknownOpcode
  /-- a mode digit of a parameter is not 0, 1 or 2 (R89) -/
  | badModeDigit
  /-- Immediate mode on a write parameter (R95) -/
  | immediateWrite
  /-- a nonzero digit above the last mode digit (R90) -/
  | excessDigits
  /-- there is no instruction word -/
  | noWord
  /-- there are fewer literals than parameters -/
  | missingLiteral
  deriving DecidableEq, Repr

/-- `digit(w, j)` of a non-negative number (R14). -/
def digit (n j : Nat) : Nat := n / 10 ^ j % 10

/-- The opcode map (R85). -/
def Opcode.ofCode : Nat → Option Opcode
  | 1 => some .add
  | 2 => some .mul
  | 3 => some .input
  | 4 => some .output
  | 5 => some .jt
  | 6 => some .jf
  | 7 => some .lt
  | 8 => some .eq
  | 9 => some .arb
  | 99 => some .hlt
  | _ => none

/-- The parameters each opcode has (R83, R85). -/
def Opcode.params : Opcode → List ParamKind
  | .add => [.read, .read, .write]
  | .mul => [.read, .read, .write]
  | .input => [.write]
  | .output => [.read]
  | .jt => [.read, .read]
  | .jf => [.read, .read]
  | .lt => [.read, .read, .write]
  | .eq => [.read, .read, .write]
  | .arb => [.read]
  | .hlt => []

/-- NPARAMS(op) (R85, R87). -/
def Opcode.nparams (op : Opcode) : Nat := op.params.length

/-- The mode a digit stands for (R82). -/
def Mode.ofDigit : Nat → Option Mode
  | 0 => some .position
  | 1 => some .immediate
  | 2 => some .relative
  | _ => none

/-- The mode digits of the parameters `kinds`, the first at weight `10^j` (R81, R87). -/
def decodeModes (n : Nat) : List ParamKind → Nat → Except DecodeError (List Mode)
  | [], _ => .ok []
  | kind :: kinds, j =>
    match Mode.ofDigit (digit n j) with
    | none => .error .badModeDigit
    | some m =>
      if kind = .write ∧ m = .immediate then .error .immediateWrite
      else
        match decodeModes n kinds (j + 1) with
        | .error e => .error e
        | .ok ms => .ok (m :: ms)

/-- What an instruction word decodes to: the opcode and one mode per parameter (R87). -/
structure Head where
  op : Opcode
  modes : List Mode
  deriving DecidableEq, Repr

/-- `Decode(w)` (R87). -/
def decodeHead (w : Word) : Except DecodeError Head :=
  if w.toInt < 0 then .error .negativeWord
  else
    match Opcode.ofCode (w.toInt.toNat % 100) with
    | none => .error .unknownOpcode
    | some op =>
      match decodeModes w.toInt.toNat op.params 2 with
      | .error e => .error e
      | .ok ms =>
        if w.toInt.toNat / 10 ^ (op.nparams + 2) ≠ 0 then .error .excessDigits
        else .ok ⟨op, ms⟩

/-- Parameter `k` of a decoded word with its literals. Neither default is used: a decoded word has one mode per
parameter and the literals are fetched by that count. -/
def Head.param (h : Head) (lits : List Word) (k : Nat) : Param :=
  ⟨h.modes.getD k .position, lits.getD k 0⟩

/-- The instruction a decoded word and its literals make (R80, R91). -/
def Head.instr (h : Head) (lits : List Word) : Instr :=
  match h.op with
  | .add => .add (h.param lits 0) (h.param lits 1) (h.param lits 2)
  | .mul => .mul (h.param lits 0) (h.param lits 1) (h.param lits 2)
  | .input => .input (h.param lits 0)
  | .output => .output (h.param lits 0)
  | .jt => .jt (h.param lits 0) (h.param lits 1)
  | .jf => .jf (h.param lits 0) (h.param lits 1)
  | .lt => .lt (h.param lits 0) (h.param lits 1) (h.param lits 2)
  | .eq => .eq (h.param lits 0) (h.param lits 1) (h.param lits 2)
  | .arb => .arb (h.param lits 0)
  | .hlt => .hlt

/-- The instruction at the front of a list of words, with the words after it (R80, R84). -/
def decode : List Word → Except DecodeError (Instr × List Word)
  | [] => .error .noWord
  | w :: rest =>
    match decodeHead w with
    | .error e => .error e
    | .ok h =>
      if rest.length < h.op.nparams then .error .missingLiteral
      else .ok (h.instr rest, rest.drop h.op.nparams)

/-! The encoder. -/

/-- The opcode field of each opcode (R85). -/
def Opcode.code : Opcode → Nat
  | .add => 1
  | .mul => 2
  | .input => 3
  | .output => 4
  | .jt => 5
  | .jf => 6
  | .lt => 7
  | .eq => 8
  | .arb => 9
  | .hlt => 99

/-- The digit of each mode (R82). -/
def Mode.digit : Mode → Nat
  | .position => 0
  | .immediate => 1
  | .relative => 2

/-- The mode digit of parameter `k`, 0 for a parameter the opcode does not have (R102). -/
def Instr.modeDigit (i : Instr) (k : Nat) : Nat :=
  match i.params[k]? with
  | some p => p.mode.digit
  | none => 0

/-- The instruction word as a number: `opcode + 100*A + 1000*B + 10000*C` (R81, R102). -/
def Instr.wordNat (i : Instr) : Nat :=
  i.opcode.code + 100 * i.modeDigit 0 + 1000 * i.modeDigit 1 + 10000 * i.modeDigit 2

/-- The instruction word (R102). -/
def Instr.word (i : Instr) : Word := BitVec.ofNat 64 i.wordNat

/-- The words of an instruction: its instruction word, then its literals (R80, R102). -/
def encode (i : Instr) : List Word := i.word :: i.params.map Param.lit

/-! A word of spec/opcode_table.json. -/

/-- Word `k` of a number whose bit 0 is the least significant bit of the first 64-bit word (log entry 12). -/
def tableWord (w k : Nat) : Word := BitVec.ofNat 64 (w / 2 ^ (64 * k))

/-- The four words of such a number, as many as the longest instruction has (R84). -/
def tableWords (w : Nat) : List Word := [tableWord w 0, tableWord w 1, tableWord w 2, tableWord w 3]

/-- The instruction the decoder reads from an opcode-table word of `nbits` bits; the bits above them are read as 0. -/
def decodeTableWord (nbits w : Nat) : Option Instr :=
  match decode (tableWords (w % 2 ^ nbits)) with
  | .ok (i, _) => some i
  | .error _ => none

end Sys2Proof
end

