-- ==== Sys2Proof/Config.lean ====
section
/-! DEFINITION. What an implementation fixes (the parameters of rule R12, 00_scope.md) and the one free value. -/

namespace Sys2Proof

/-- A FIFO depth: `INF` or a number of words (R12). -/
inductive Depth where
  | inf
  | words (n : Nat)
  deriving DecidableEq, Repr

/-- The OPEN parameters of rule R12. They stand in `Machine.State` as a field no step and no transaction changes, so
that a statement about every state is a statement about every value of them (log entry 1). HOST_LINK (R182) has no
behaviour and is left out. -/
structure Config where
  /-- `MEM_CAP`: how many words the memory can hold (R12, D5). -/
  memCap : Nat
  /-- `IN_DEPTH` (R12, R201, D17). -/
  inDepth : Depth
  /-- `OUT_DEPTH` (R12, R203, D16). -/
  outDepth : Depth
  deriving DecidableEq, Repr

/-- A depth R12 allows: `INF`, or a positive number. -/
def Depth.legal : Depth → Bool
  | .inf => true
  | .words n => 0 < n

/-- `n` words fit a FIFO of this depth (R31). -/
def Depth.fits : Depth → Nat → Bool
  | .inf, _ => true
  | .words d, n => n ≤ d

/-- The parameter values R12 allows: `1 ≤ MEM_CAP ≤ 2^62`, depths positive or `INF`. -/
def Config.legal (c : Config) : Bool :=
  1 ≤ c.memCap && c.memCap ≤ 2 ^ 62 && c.inDepth.legal && c.outDepth.legal

/-- The configuration `State.reset` carries: `MEM_CAP` has no default in the spec (DESIGN CHOICE: the largest legal
value, log entry 1); the depths are the spec's default `INF` (R12). -/
def Config.default : Config := ⟨2 ^ 62, .inf, .inf⟩

/-- FREE VALUE (log entry 7): what the 64-bit `fault.addr` (R27) holds when the address an error is about, `literal +
rb` computed exactly (R96), is outside `i64`. R232 and R233 record "the address" and no rule says how it is put into a
field it does not fit. Nothing is known of it. -/
opaque Config.wideAddr : Int → Word

end Sys2Proof
end

