-- ==== Sys2Proof/Machine/State.lean ====
section
/-! DEFINITION. The state of one instance (10_state.md), its reset, and the reasons a step can stop. -/

namespace Sys2Proof.Machine

/-- One listed memory cell: a word address and the word there (R55: nothing is addressed at a finer grain; log entry 3).
-/
abbrev Cell := Nat × Word

/-- The cells that do not read 0, addresses strictly rising (R57; `Memory.wf` is the canonical form; log
entry 2). -/
abbrev Memory := List Cell

/-- What an address that is not listed reads as (R57: growth fills with 0). -/
def unlistedWord : Word := 0

/-- The VM state register (R26). -/
inductive VmState where
  | running
  | waitingForInput
  | stopped
  deriving DecidableEq, Repr

/-- The kinds of the fault latch (R27, R230 to R234). -/
inductive FaultKind where
  | none
  | invalidOpcode
  | invalidAddress
  | capacityExceeded
  | arithmeticOverflow
  deriving DecidableEq, Repr

/-- The fault latch's record `(kind, addr, word)` (R27). -/
structure FaultRecord where
  kind : FaultKind
  addr : Word
  word : Word
  deriving DecidableEq, Repr

/-- The latch with no error in it (R27, R35). -/
def FaultRecord.clear : FaultRecord := ⟨.none, 0, 0⟩

/-- The state of one instance: the tuple `(loaded, mem, memLen, pc, rb, state, InQ, OutQ, fault)` of 10_state.md, and
the parameters of R12, which are fixed for its life (log entry 1). -/
structure State where
  /-- MEM_CAP, IN_DEPTH, OUT_DEPTH (R12); nothing changes it -/
  cfg : Config
  /-- the loaded flag (R32); false before the first LOAD, with every other field unspecified (R273; log entry 10) -/
  loaded : Bool
  /-- the memory's contents (R30) -/
  mem : Memory
  /-- the memory's length (R30) -/
  memLen : Nat
  /-- the program counter (R21, R22) -/
  pc : Word
  /-- the relative base (R25) -/
  rb : Word
  /-- the VM state register (R26) -/
  state : VmState
  /-- the input queue, oldest value first (R31) -/
  inQ : List Word
  /-- the output queue, oldest value first (R31) -/
  outQ : List Word
  /-- the fault latch (R27) -/
  fault : FaultRecord
  deriving DecidableEq, Repr

/-- Reset is `LOAD(snapshot)` (R270); this is the state after LOAD of the empty snapshot, which R275 allows: the values
of R35's table, memory with nothing listed (log entry 4). -/
def State.reset : State where
  cfg := Config.default
  loaded := true
  mem := []
  memLen := 0
  pc := 0
  rb := 0
  state := .running
  inQ := []
  outQ := []
  fault := FaultRecord.clear

/-- A step never stops the machine with a reason outside the state: every error the spec names is either latched in
`fault` by a step that goes on to a next state (R240), or changes nothing (R189, R190, R212). So there is no
constructor (safe: nothing can be hidden behind one; log entry 5). -/
inductive Fault where
  deriving DecidableEq, Repr

/-- Why an instruction has no meaning. -/
inductive Refusal where
  /-- raised by an arm of `exec` for an instruction that is not modelled yet (safe: the model stops); no arm does. -/
  | notModelled (mnemonic : String)
  deriving DecidableEq, Repr

/-- What a meaning and a step answer. -/
abbrev Result := Host.Outcome State Fault Refusal

end Sys2Proof.Machine
end

