-- ==== Sys2Proof/Machine/Ops.lean ====
section
/-! DEFINITION. The shared operations over memory, the queues, the pc and the fault latch: the checked, growing memory
accesses (R51 to R54), raising a fatal error (R240), blocking (R240, R243), the commit's pc advance (R23) and the FIFO
controllers (R201 to R204). -/

namespace Sys2Proof.Machine

/-! Memory. -/

/-- The word at address `a` (R57). -/
def Memory.read : Memory → Nat → Word
  | [], _ => unlistedWord
  | (b, v) :: rest, a => if a = b then v else Memory.read rest a

/-- Put `v` at address `a`, keeping the canonical form. -/
def Memory.write : Memory → Nat → Word → Memory
  | [], a, v => if v = unlistedWord then [] else [(a, v)]
  | (b, u) :: rest, a, v =>
    if a < b then (if v = unlistedWord then (b, u) :: rest else (a, v) :: (b, u) :: rest)
    else if a = b then (if v = unlistedWord then rest else (a, v) :: rest)
    else (b, u) :: Memory.write rest a v

/-- The memory that holds the words `ws` from address `a` up (LOAD, R270). -/
def Memory.ofWords : Nat → List Word → Memory
  | _, [] => []
  | a, w :: ws => if w = unlistedWord then Memory.ofWords (a + 1) ws else (a, w) :: Memory.ofWords (a + 1) ws

/-- The canonical form: addresses strictly rising, no cell that holds what an unlisted address reads as. -/
def Memory.wf : Memory → Bool
  | [] => true
  | (a, v) :: rest => v ≠ unlistedWord && rest.all (fun c => a < c.1) && Memory.wf rest

/-! Accesses. -/

/-- How a memory access, or the resolution of an operand, ends: with a value, or with an error of kind `k` about the
exact address `addr` (R14: addresses are integers). The state carries the growth of the accesses done so far (R240). -/
inductive Access (α : Type) where
  | ok (v : α) (s : State)
  | error (k : FaultKind) (addr : Int) (s : State)
  deriving Repr

/-- The legal addresses (R51). -/
def addressOk (s : State) (a : Int) : Bool := 0 ≤ a && a < s.cfg.memCap

/-- The error `CheckAddr` raises for an address that is not legal (R51, R232, R233). -/
def addressError (a : Int) : FaultKind := if a < 0 then .invalidAddress else .capacityExceeded

/-- `CheckAddr(a)` (R51): the address as a cell's key, or the error; nothing grows. -/
def checkAddr (s : State) (a : Int) : Access Nat :=
  if addressOk s a then .ok a.toNat s else .error (addressError a) a s

/-- Memory extended with zeros up to and including address `a` (R52 to R54). -/
def State.growTo (s : State) (a : Nat) : State := { s with memLen := max s.memLen (a + 1) }

/-- `MemRead(a, 1)` (R52); also `Fetch` (R15). -/
def memRead (s : State) (a : Int) : Access Word :=
  match checkAddr s a with
  | .ok n s => .ok (s.mem.read n) (s.growTo n)
  | .error k a s => .error k a s

/-- `MemWrite(a, 1, v)` (R53) at an address `CheckAddr` has passed. -/
def State.storeWord (s : State) (a : Nat) (v : Word) : State :=
  { s with mem := s.mem.write a v, memLen := max s.memLen (a + 1) }

/-- `MemWrite(a, 1, v)` (R53) with its check, as the host port does it (R208). -/
def memWrite (s : State) (a : Int) (v : Word) : Access Unit :=
  match checkAddr s a with
  | .ok n s => .ok () (s.storeWord n v)
  | .error k a s => .error k a s

/-! Fatal errors: the machine's one exception entry. -/

/-- The representable integers (R14). -/
def inRange64 (v : Int) : Bool := -2 ^ 63 ≤ v && v ≤ 2 ^ 63 - 1

/-- What the 64-bit `fault.addr` (R27) holds for an error about the integer `a`: `a` where it is in `i64`, else a free
value (DESIGN CHOICE, safe: log entry 7). -/
def latchAddr (a : Int) : Word := if inRange64 a then Word.ofInt a else Config.wideAddr a

/-- Raising the fatal error `(k, addr, word)` (R240): the latch is written, and nothing else changes. There is no
vector, no saved pc and no mode change (R242); there is no return from it (R243, R244). -/
def State.latch (s : State) (k : FaultKind) (addr : Int) (word : Word) : State :=
  { s with fault := ⟨k, latchAddr addr, word⟩ }

/-- A meaning that raises: the step ends in the latched state (R186, R240). -/
def raise (k : FaultKind) (addr : Int) (word : Word) (s : State) : Result := .next (s.latch k addr word)

/-- Go on with the value of an access, or raise its error with the instruction word `w` (R232, R233). -/
def Access.orRaise {α : Type} (r : Access α) (w : Word) (k : α → State → Result) : Result :=
  match r with
  | .ok v s => k v s
  | .error kind addr s => raise kind addr w s

/-! Blocking: the recoverable suspension (R236, R240, R243). -/

/-- `block NoInput` (R130): only `state` changes, so the next step re-executes the word at the unchanged pc (R188). -/
def blockNoInput (s : State) : Result := .next { s with state := .waitingForInput }

/-- `block OutputFull` (R131, R203): nothing changes, not even `state`. -/
def blockOutputFull (s : State) : Result := .next s

/-! Commit. -/

/-- The pc after an instruction of `n` words that is no taken jump (R23). -/
def State.pcAfter (s : State) (n : Nat) : Word := s.pc + BitVec.ofNat 64 n

/-- The commit's `pc <- pc + n; state <- Running` (R23, R187). -/
def State.advance (s : State) (n : Nat) : State := { s with pc := s.pcAfter n, state := .running }

/-- The commit of a jump: `pc <- npc; state <- Running` (R140, R141). -/
def State.jumpTo (s : State) (npc : Word) : State := { s with pc := npc, state := .running }

/-- The commit of an instruction that stores `v` at `d` and has `n` words. -/
def commitStore (s : State) (d : Nat) (v : Word) (n : Nat) : Result := .next ((s.storeWord d v).advance n)

/-! The FIFO controllers (R201 to R204, R215). -/

/-- `inEmpty` (R130, R201). -/
def inEmpty (s : State) : Bool := s.inQ.isEmpty

/-- `inPop`: remove the oldest input (R130). -/
def State.inPop (s : State) : State := { s with inQ := s.inQ.tail }

/-- `inPush` of several values, oldest first (R198). -/
def State.inPush (s : State) (vs : List Word) : State := { s with inQ := s.inQ ++ vs }

/-- `outFull`: a finite OUT_DEPTH is reached (R131, R203). -/
def outFull (s : State) : Bool :=
  match s.cfg.outDepth with
  | .inf => false
  | .words d => s.outQ.length = d

/-- `outPush` (R131). -/
def State.outPush (s : State) (v : Word) : State := { s with outQ := s.outQ ++ [v] }

/-- `outPopFront` (R194, R195). -/
def State.outPopFront (s : State) : State := { s with outQ := s.outQ.tail }

/-- `outDrainAll` (R199). -/
def State.outDrainAll (s : State) : State := { s with outQ := [] }

end Sys2Proof.Machine
end

