-- ==== Sys2Proof/Machine/Flags.lean ====
section
/-! DEFINITION. What stands where another machine has flags. This one has none (R28): an instruction's conditions are
the overflow check of ADD, MUL and ARB (R123, R161), the 0 or 1 that LT and EQ store (R152), and the test of the jumps
(R140, R141). -/

namespace Sys2Proof.Machine

/-- The overflow check on an exact result (R14, R123, R161): go on with the word that holds it, or raise
`ArithmeticOverflow` with `addr = pc` and `word = w` (R234). -/
def inRangeOrRaise (v : Int) (w : Word) (s : State) (k : Word → State → Result) : Result :=
  if inRange64 v then k (Word.ofInt v) s else raise .arithmeticOverflow s.pc.toInt w s

/-- The word LT and EQ store for a condition (R150 to R152). -/
def boolWord (b : Bool) : Word := if b then 1 else 0

/-- The signed comparison of LT (R150, R152). -/
def lessThan (a b : Word) : Bool := a.toInt < b.toInt

/-- The equality of EQ (R151). -/
def equals (a b : Word) : Bool := a.toInt = b.toInt

/-- A jump operand is true: any nonzero value, negative included (R140, R141). -/
def isTrue (a : Word) : Bool := a.toInt ≠ 0

end Sys2Proof.Machine
end

