-- ==== Sys2Proof/Machine/Operands.lean ====
section
/-! DEFINITION. The addressing-mode resolver (R92 to R98 of 30_encoding.md): the three forms of a read parameter and
the two of a write parameter, and the plain reading of each that statements use. -/

namespace Sys2Proof.Machine

/-- The effective address of a parameter, exact and never wrapped (R93, R94, R96): the literal in Position mode,
literal + rb in Relative mode. An Immediate parameter has no address; what stands here for it is not used. -/
def operandAddress (p : Param) (s : State) : Int :=
  match p.mode with
  | .position => p.lit.toInt
  | .relative => p.lit.toInt + s.rb.toInt
  | .immediate => p.lit.toInt

/-- `ReadOperand` (R93): the literal itself, or a memory read with its check and growth. -/
def readOperand (p : Param) (s : State) : Access Word :=
  match p.mode with
  | .immediate => .ok p.lit s
  | .position => memRead s (operandAddress p s)
  | .relative => memRead s (operandAddress p s)

/-- `WriteAddress` (R94): the destination address, checked; the write and its growth come at commit. Immediate cannot
reach it from a decoded word; a term that has it is the `InvalidOpcode` of R95 (log entry 9). -/
def writeAddress (p : Param) (s : State) : Access Nat :=
  match p.mode with
  | .position => checkAddr s (operandAddress p s)
  | .relative => checkAddr s (operandAddress p s)
  | .immediate => .error .invalidOpcode s.pc.toInt s

/-! What `readOperand` and `writeAddress` come to, without the error path. -/

/-- The read parameter `p` resolves without an error (R93, R51). -/
def readable (p : Param) (s : State) : Bool := p.mode = .immediate || addressOk s (operandAddress p s)

/-- The write parameter `p` resolves without an error (R94, R51). -/
def writable (p : Param) (s : State) : Bool := p.mode ≠ .immediate && addressOk s (operandAddress p s)

/-- The error of a read parameter that is not readable (R51, R93), about the address `operandAddress p s`. -/
def readError (p : Param) (s : State) : FaultKind := addressError (operandAddress p s)

/-- The error of a write parameter that is not writable: its address's, or `InvalidOpcode` for Immediate (R94, R95). -/
def writeError (p : Param) (s : State) : FaultKind :=
  if p.mode = .immediate then .invalidOpcode else addressError (operandAddress p s)

/-- The address that error is about: the pc for Immediate (R95), else the effective address. -/
def writeErrorAddr (p : Param) (s : State) : Int :=
  if p.mode = .immediate then s.pc.toInt else operandAddress p s

/-- The value of a readable parameter (R93, R98). -/
def operandValue (p : Param) (s : State) : Word :=
  match p.mode with
  | .immediate => p.lit
  | .position => s.mem.read (operandAddress p s).toNat
  | .relative => s.mem.read (operandAddress p s).toNat

/-- The destination of a writable parameter (R94). -/
def destination (p : Param) (s : State) : Nat := (operandAddress p s).toNat

/-- The memory length after the access of parameter `p` when it was `len` before (R52, R53): grown up to and including
its address, or unchanged for an Immediate. -/
def lenAfter (p : Param) (s : State) (len : Nat) : Nat :=
  match p.mode with
  | .immediate => len
  | .position => max len ((operandAddress p s).toNat + 1)
  | .relative => max len ((operandAddress p s).toNat + 1)

end Sys2Proof.Machine
end

