-- ==== Sys2Proof/Machine/Arithmetic.lean ====
section
/-! DEFINITION. ADD and MUL (40_arithmetic.md). Like every meaning, they start after the front end of R186: the state
has grown by the fetches of the instruction's words (log entry 16). The word `w` an error records is computed back from
the instruction (log entry 6). -/

namespace Sys2Proof.Machine

/-- Read `a` and `b`, resolve `dst`, check the exact result, store it (the common shape of R120 and R121). -/
def storeExact (f : Int → Int → Int) (w : Word) (a b dst : Param) (s : State) : Result :=
  (readOperand a s).orRaise w fun x s =>
  (readOperand b s).orRaise w fun y s =>
  (writeAddress dst s).orRaise w fun d s =>
  inRangeOrRaise (f x.toInt y.toInt) w s fun v s => commitStore s d v 4

/-- ADD: `dst = a + b`, exact (R120, R123). -/
def execAdd (a b dst : Param) (s : State) : Result :=
  storeExact (fun x y => x + y) (Instr.add a b dst).word a b dst s

/-- MUL: `dst = a * b`, exact (R121, R123). -/
def execMul (a b dst : Param) (s : State) : Result :=
  storeExact (fun x y => x * y) (Instr.mul a b dst).word a b dst s

end Sys2Proof.Machine
end

