-- ==== Sys2Proof/Machine/Compare.lean ====
section
/-! DEFINITION. LT and EQ (43_compare.md). -/

namespace Sys2Proof.Machine

/-- Read `a` and `b`, resolve `dst`, store 1 or 0 (the common shape of R150 and R151). -/
def storeCondition (c : Word → Word → Bool) (w : Word) (a b dst : Param) (s : State) : Result :=
  (readOperand a s).orRaise w fun x s =>
  (readOperand b s).orRaise w fun y s =>
  (writeAddress dst s).orRaise w fun d s =>
  commitStore s d (boolWord (c x y)) 4

/-- LT: `dst = 1 if a < b else 0`, signed (R150, R152). -/
def execLt (a b dst : Param) (s : State) : Result := storeCondition lessThan (Instr.lt a b dst).word a b dst s

/-- EQ: `dst = 1 if a = b else 0` (R151, R152). -/
def execEq (a b dst : Param) (s : State) : Result := storeCondition equals (Instr.eq a b dst).word a b dst s

end Sys2Proof.Machine
end

