-- ==== Sys2Proof/Machine/Halt.lean ====
section
/-! DEFINITION. HLT (45_halt.md). -/

namespace Sys2Proof.Machine

/-- HLT: `pc <- pc + 1; state <- Stopped` (R170, R171). -/
def execHlt (s : State) : Result := .next { s with pc := s.pcAfter 1, state := .stopped }

end Sys2Proof.Machine
end

