-- ==== Sys2Proof/Machine/InputOutput.lean ====
section
/-! DEFINITION. IN and OUT (41_io.md). -/

namespace Sys2Proof.Machine

/-- IN: `dst = next queued input`; with the queue empty the step blocks before the destination is looked at (R130,
R97, R238). An error consumes no input (R240). -/
def execInput (dst : Param) (s : State) : Result :=
  match s.inQ with
  | [] => blockNoInput s
  | v :: _ => (writeAddress dst s).orRaise (Instr.input dst).word fun d s => commitStore s.inPop d v 2

/-- OUT: append `a` to the output queue; with the queue full (finite OUT_DEPTH) the step blocks before the operand is
read (R131, R97). -/
def execOutput (a : Param) (s : State) : Result :=
  if outFull s then blockOutputFull s
  else (readOperand a s).orRaise (Instr.output a).word fun v s => .next ((s.outPush v).advance 2)

end Sys2Proof.Machine
end

