-- ==== Sys2Proof/Machine/Jumps.lean ====
section
/-! DEFINITION. JT and JF (42_jumps.md). -/

namespace Sys2Proof.Machine

/-- Read `a` and the target, taken or not (R97), then go to the target if `c a`, else past the three words. Any value is
a legal target (R142). -/
def jumpIf (c : Word → Bool) (w : Word) (a target : Param) (s : State) : Result :=
  (readOperand a s).orRaise w fun x s =>
  (readOperand target s).orRaise w fun t s =>
  .next (s.jumpTo (if c x then t else s.pcAfter 3))

/-- JT: `if a ≠ 0, PC = target` (R140). -/
def execJt (a target : Param) (s : State) : Result := jumpIf isTrue (Instr.jt a target).word a target s

/-- JF: `if a = 0, PC = target` (R141). -/
def execJf (a target : Param) (s : State) : Result :=
  jumpIf (fun x => !isTrue x) (Instr.jf a target).word a target s

end Sys2Proof.Machine
end

