-- ==== Sys2Proof/Machine/RelativeBase.lean ====
section
/-! DEFINITION. ARB (44_relative_base.md). -/

namespace Sys2Proof.Machine

/-- ARB: `RelativeBase += a`, exact; the operand is read with the old `rb` (R160, R161). -/
def execArb (a : Param) (s : State) : Result :=
  (readOperand a s).orRaise (Instr.arb a).word fun x s =>
  inRangeOrRaise (s.rb.toInt + x.toInt) (Instr.arb a).word s fun v s => .next (({ s with rb := v } : State).advance 2)

end Sys2Proof.Machine
end

