-- ==== Sys2Proof/Machine/Fetch.lean ====
section
/-! DEFINITION. The front end of a step (R186): the gate, the fetch of the instruction word, its decoding, the fetch of
its literals; and where a loaded word goes. -/

namespace Sys2Proof.Machine

/-- The states a step executes an instruction in: loaded, no fault latched, not Stopped (R186, R188, R238). -/
def ready (s : State) : Bool := s.loaded && s.fault.kind = .none && s.state ≠ .stopped

/-- The literal fetches of `n` words from address `a` up, in order, each a growing, checked read (R91). -/
def fetchLiterals : Nat → Int → State → Access (List Word)
  | 0, _, s => .ok [] s
  | n + 1, a, s =>
    match memRead s a with
    | .error k a s => .error k a s
    | .ok v s =>
      match fetchLiterals n (a + 1) s with
      | .error k a s => .error k a s
      | .ok vs s => .ok (v :: vs) s

/-- How the front end ends: with an instruction to run, or with a fatal error latched. -/
inductive FrontEnd where
  | fetched (i : Instr) (s : State)
  | fatal (s : State)
  deriving DecidableEq, Repr

/-- Fetch, decode, fetch the literals (R87, R91, R97, R186). An error of the first fetch records `word = 0` (R232); a
literal fetch records the instruction word; an illegal word is `InvalidOpcode(w, pc)` (R87, R231). -/
def fetchInstr (s : State) : FrontEnd :=
  match memRead s s.pc.toInt with
  | .error k a s => .fatal (s.latch k a 0)
  | .ok w s =>
    match decodeHead w with
    | .error _ => .fatal (s.latch .invalidOpcode s.pc.toInt w)
    | .ok h =>
      match fetchLiterals h.op.nparams (s.pc.toInt + 1) s with
      | .error k a s => .fatal (s.latch k a w)
      | .ok lits s => .fetched (h.instr lits) s

/-- The words at the pc onwards, `n` of them, as a fetch reads them. -/
def wordsAt (s : State) (a n : Nat) : List Word := (List.range n).map fun k => s.mem.read (a + k)

/-- Store words at consecutive addresses from `a` up. -/
def State.storeWords (s : State) (a : Nat) : List Word → State
  | [] => s
  | w :: ws => (s.storeWord a w).storeWords (a + 1) ws

/-- The pc a loaded instruction is placed at: the pc itself where the longest instruction can be fetched there, else
address 0, the entry point (R272). -/
def fetchBase (s : State) : Nat :=
  if addressOk s s.pc.toInt && addressOk s (s.pc.toInt + 3) then s.pc.toInt.toNat else 0

/-- `s` made to execute the words `ws` at its next step: loaded, no fault, not Stopped, the words stored at the pc
(log entry 4). -/
def State.withWords (s : State) (ws : List Word) : State :=
  { s.storeWords (fetchBase s) ws with
    loaded := true
    pc := BitVec.ofNat 64 (fetchBase s)
    state := if s.state = .stopped then .running else s.state
    fault := FaultRecord.clear }

end Sys2Proof.Machine
end

