-- ==== Sys2Proof/Machine/Step.lean ====
section
/-! DEFINITION. One step of the control FSM (R186 of 46_controller.md). -/

namespace Sys2Proof.Machine

/-- `Step()` (R186) as a transition: a state that is not ready (not loaded, faulted, Stopped) is left as it is (R189,
R190, R212); else the front end runs, and then the instruction. What the step answers the host is `stepResponse`
(HostPort.lean). -/
def step (s : State) : Host.Outcome State Fault Refusal :=
  if ready s then
    match fetchInstr s with
    | .fatal s => .next s
    | .fetched i s => exec i s
  else .next s

/-- `s` with the instruction of an opcode-table word stored where `step` fetches next (log entry 4). -/
def State.withFetchWord (s : State) (nbits w : Nat) : State := s.withWords (tableWords (w % 2 ^ nbits))

end Sys2Proof.Machine
end

