-- ==== Sys2Proof/Machine/HostPort.lean ====
section
/-! DEFINITION. The host interface (46_controller.md): the responses of a step, the ten transactions, and several
instances side by side. One transaction completes before the next begins (R184): each is one function of the state
(log entry 15). -/

namespace Sys2Proof.Machine

/-- Why a step blocked (R183, R236). -/
inductive BlockReason where
  | noInput
  | outputFull
  deriving DecidableEq, Repr

/-- The encoding of the state register in the status read (R26). -/
def VmState.code : VmState → Nat
  | .running => 0
  | .waitingForInput => 1
  | .stopped => 2

/-- The encoding of the fault kind in the status read (R27). -/
def FaultKind.code : FaultKind → Nat
  | .none => 0
  | .invalidOpcode => 1
  | .invalidAddress => 2
  | .capacityExceeded => 3
  | .arithmeticOverflow => 4

/-- The status record (R210). -/
structure Status where
  loaded : Bool
  state : Nat
  pc : Word
  rb : Word
  faultKind : Nat
  faultAddr : Word
  faultWord : Word
  memLen : Nat
  inLen : Nat
  outLen : Nat
  deriving DecidableEq, Repr

/-- The responses of the transactions (R183, R192, R194, R198 to R212). -/
inductive Response where
  /-- a completed LOAD, ADD_INPUTS or MEM_WRITE -/
  | ok
  /-- LOAD of a snapshot longer than MEM_CAP (R207) -/
  | loadRefused
  /-- any other transaction before the first LOAD (R212) -/
  | notLoaded
  /-- the instruction completed and left this state (R183) -/
  | progressed (s : VmState)
  /-- recoverable (R183, R236) -/
  | blocked (b : BlockReason)
  /-- a fatal error, now or earlier (R183, R190) -/
  | fatal (f : FaultRecord)
  /-- a step of a Stopped instance (R189, R235) -/
  | stoppedError
  /-- RUN reached Halt (R192) -/
  | halted
  /-- RUN_UNTIL_OUTPUT reached Halt with no output (R197) -/
  | noMoreOutput
  /-- one word: RUN_UNTIL_OUTPUT's output, or a cell (R194, R209) -/
  | value (v : Word)
  /-- DRAIN_OUTPUTS' sequence, oldest first (R199) -/
  | values (vs : List Word)
  /-- IS_RUNNING's answer (R200) -/
  | isRunning (b : Bool)
  /-- ADD_INPUTS beyond a finite IN_DEPTH (R201) -/
  | inputFull
  /-- a host access at an illegal address (R208, R209) -/
  | addrError (k : FaultKind) (a : Int)
  /-- STATUS' record (R210) -/
  | status (r : Status)
  deriving DecidableEq, Repr

/-- The response codes of a step (R183). -/
def Response.stepCode : Response → Option Nat
  | .progressed _ => some 0
  | .blocked .noInput => some 1
  | .blocked .outputFull => some 2
  | .fatal _ => some 3
  | .stoppedError => some 4
  | .notLoaded => some 5
  | .ok | .loadRefused | .halted | .noMoreOutput | .value _ | .values _ | .isRunning _ | .inputFull
  | .addrError _ _ | .status _ => none

/-- The transactions (R181). A host address is any integer: its width is the link's (R182; log entry 11).
-/
inductive Transaction where
  | load (snapshot : List Word)
  | step
  | run
  | runUntilOutput
  | addInputs (values : List Word)
  | drainOutputs
  | isRunning
  | memRead (a : Int)
  | memWrite (a : Int) (v : Word)
  | status
  deriving DecidableEq, Repr

/-- What a transaction comes to: its response and the state it leaves. -/
abbrev Reply := Host.Outcome (Response × State) Fault Refusal

/-! STEP. -/

/-- The queue check of an instruction (R97 point 4, R238 point 7): why it blocks in `s`, if it does. -/
def blockedBy (i : Instr) (s : State) : Option BlockReason :=
  match i with
  | .input _ => if inEmpty s then some .noInput else none
  | .output _ => if outFull s then some .outputFull else none
  | .add .. | .mul .. | .jt .. | .jf .. | .lt .. | .eq .. | .arb .. | .hlt => none

/-- The block a step of `s` ends in, if it ends in one. -/
def stepBlock (s : State) : Option BlockReason :=
  match fetchInstr s with
  | .fatal _ => none
  | .fetched i s => blockedBy i s

/-- What `Step()` returns (R186) when it takes `s` to `s'`: the gate in its order, a fatal error, a block, or progress. -/
def stepResponse (s s' : State) : Response :=
  if !s.loaded then .notLoaded
  else if s.fault.kind ≠ .none then .fatal s.fault
  else if s.state = .stopped then .stoppedError
  else if s'.fault.kind ≠ .none then .fatal s'.fault
  else
    match stepBlock s with
    | some b => .blocked b
    | none => .progressed s'.state

/-- STEP (R191): the transition of `step` with its response. -/
def stepReply (s : State) : Reply :=
  match step s with
  | .next s' => .next (stepResponse s s', s')
  | .fault r => .fault r
  | .refused r => .refused r

/-! RUN and RUN_UNTIL_OUTPUT. They have no step bound (R192, D19), so each is a loop with fuel; `none` is fuel that ran
out, which is no end of the run and says nothing of the program (R214; log entry 8). -/

/-- RUN's loop (R192). -/
def runLoop : Nat → State → Option Reply
  | 0, _ => none
  | fuel + 1, s =>
    match stepReply s with
    | .next (.progressed .stopped, s') => some (.next (.halted, s'))
    | .next (.progressed .running, s') => runLoop fuel s'
    | .next (.progressed .waitingForInput, s') => runLoop fuel s'
    | .next (r, s') => some (.next (r, s'))
    | .fault r => some (.fault r)
    | .refused r => some (.refused r)

/-- RUN (R192, R193). -/
def run (fuel : Nat) (s : State) : Option Reply :=
  if !s.loaded then some (.next (.notLoaded, s))
  else if s.fault.kind ≠ .none then some (.next (.fatal s.fault, s))
  else if s.state = .stopped then some (.next (.stoppedError, s))
  else runLoop fuel s

/-- RUN_UNTIL_OUTPUT's loop (R194, R197). -/
def untilOutputLoop : Nat → State → Option Reply
  | 0, _ => none
  | fuel + 1, s =>
    match stepReply s with
    | .next (.progressed vm, s') =>
      match s'.outQ with
      | v :: _ => some (.next (.value v, s'.outPopFront))
      | [] => if vm = .stopped then some (.next (.noMoreOutput, s')) else untilOutputLoop fuel s'
    | .next (r, s') => some (.next (r, s'))
    | .fault r => some (.fault r)
    | .refused r => some (.refused r)

/-- RUN_UNTIL_OUTPUT (R194 to R197). -/
def runUntilOutput (fuel : Nat) (s : State) : Option Reply :=
  if !s.loaded then some (.next (.notLoaded, s))
  else if s.fault.kind ≠ .none then some (.next (.fatal s.fault, s))
  else
    match s.outQ with
    | v :: _ => some (.next (.value v, s.outPopFront))
    | [] => if s.state = .stopped then some (.next (.stoppedError, s)) else untilOutputLoop fuel s

/-! The other transactions. -/

/-- LOAD (R207, R270): every element set, nothing of the previous instance left; the parameters are the block's. -/
def load (snapshot : List Word) (s : State) : Response × State :=
  if snapshot.length ≤ s.cfg.memCap then
    (.ok,
      { cfg := s.cfg
        loaded := true
        mem := Memory.ofWords 0 snapshot
        memLen := snapshot.length
        pc := 0
        rb := 0
        state := .running
        inQ := []
        outQ := []
        fault := FaultRecord.clear })
  else (.loadRefused, s)

/-- ADD_INPUTS (R198, R201): all the values or none. -/
def addInputs (values : List Word) (s : State) : Response × State :=
  if s.cfg.inDepth.fits (s.inQ.length + values.length) then (.ok, s.inPush values) else (.inputFull, s)

/-- DRAIN_OUTPUTS (R199). -/
def drainOutputs (s : State) : Response × State := (.values s.outQ, s.outDrainAll)

/-- IS_RUNNING (R200): reads only `state`. -/
def isRunning (s : State) : Response × State := (.isRunning (s.state ≠ .stopped), s)

/-- MEM_READ (R209): no growth, no latch. -/
def hostRead (a : Int) (s : State) : Response × State :=
  match checkAddr s a with
  | .ok n s => (.value (s.mem.read n), s)
  | .error k a s => (.addrError k a, s)

/-- MEM_WRITE (R208): growth as any write; an error is not latched. -/
def hostWrite (a : Int) (v : Word) (s : State) : Response × State :=
  match memWrite s a v with
  | .ok _ s => (.ok, s)
  | .error k a s => (.addrError k a, s)

/-- STATUS (R210). -/
def status (s : State) : Response × State :=
  (.status
    { loaded := s.loaded
      state := s.state.code
      pc := s.pc
      rb := s.rb
      faultKind := s.fault.kind.code
      faultAddr := s.fault.addr
      faultWord := s.fault.word
      memLen := s.memLen
      inLen := s.inQ.length
      outLen := s.outQ.length }, s)

/-- A transaction on a loaded instance (R191 to R210); `fuel` bounds the loops of RUN and RUN_UNTIL_OUTPUT only. -/
def loadedReply (fuel : Nat) (t : Transaction) (s : State) : Option Reply :=
  match t with
  | .load snapshot => some (.next (load snapshot s))
  | .step => some (stepReply s)
  | .run => run fuel s
  | .runUntilOutput => runUntilOutput fuel s
  | .addInputs values => some (.next (addInputs values s))
  | .drainOutputs => some (.next (drainOutputs s))
  | .isRunning => some (.next (isRunning s))
  | .memRead a => some (.next (hostRead a s))
  | .memWrite a v => some (.next (hostWrite a v s))
  | .status => some (.next (status s))

/-- LOAD is the one transaction an instance that is not loaded takes (R212). -/
def Transaction.isLoad : Transaction → Bool
  | .load _ => true
  | .step | .run | .runUntilOutput | .addInputs _ | .drainOutputs | .isRunning | .memRead _ | .memWrite _ _
  | .status => false

/-- A transaction (R181, R212). -/
def transact (fuel : Nat) (t : Transaction) (s : State) : Option Reply :=
  if s.loaded || t.isLoad then loadedReply fuel t s else some (.next (.notLoaded, s))

/-! Several instances (R70, R205, R250): each has its own state and nothing connects them (log
entry 13). -/

/-- A transaction on instance `k` of a list of instances; no instance `k`, no transaction. -/
def transactOn (fuel k : Nat) (t : Transaction) (sys : List State) : Option (Host.Outcome (Response × List State) Fault Refusal) :=
  match sys[k]? with
  | none => none
  | some s =>
    match transact fuel t s with
    | none => none
    | some (.next (r, s')) => some (.next (r, sys.set k s'))
    | some (.fault e) => some (.fault e)
    | some (.refused e) => some (.refused e)

end Sys2Proof.Machine
end

