-- ==== Sys2Proof/Safety.lean ====
section
/-! DEFINITION. The terms claims use: the invariant of every instance, the ends and waits of a run (R213), what RUN
comes to without a bound, and a safe run. -/

namespace Sys2Proof.Machine

/-- What holds of every instance from its LOAD on: legal parameters (R12); memory in canonical form, no cell at or
above `memLen`, `memLen ≤ MEM_CAP` (R30); the queue bounds (R31); an empty latch records 0 and 0 (R27); a Stopped
instance has no fault latched (a faulted state is never final, R213). States outside it: log entry 14. -/
def State.inv (s : State) : Bool :=
  s.cfg.legal && s.mem.wf && s.mem.all (fun c => c.1 < s.memLen) && s.memLen ≤ s.cfg.memCap
    && s.cfg.inDepth.fits s.inQ.length && s.cfg.outDepth.fits s.outQ.length
    && (s.fault.kind ≠ .none || s.fault = FaultRecord.clear)
    && (s.state ≠ .stopped || s.fault.kind = .none)

/-- A fatal error is latched (R213). -/
def State.faulted (s : State) : Bool := s.fault.kind ≠ .none

/-- The end of a run (R213). -/
def State.final (s : State) : Bool := s.loaded && s.state = .stopped && s.fault.kind = .none

/-- Blocked on input (R213); a faulted state that meets the condition counts (log entry 19). -/
def State.blockedOnInput (s : State) : Bool := s.state = .waitingForInput && s.inQ.isEmpty

/-- Blocked on output (R213): the word at pc is an Output and the queue is full. DESIGN CHOICE (log entry 19): R213's
condition also holds of some final states, of which the same rule says "neither is final"; here no final state counts as
blocked on output, and a faulted one that meets the condition does. -/
def State.blockedOnOutput (s : State) : Bool :=
  !s.final && addressOk s s.pc.toInt
    && (match decodeHead (s.mem.read s.pc.toInt.toNat) with
        | .ok h => h.op = .output
        | .error _ => false)
    && outFull s

/-- `n` steps lead from `s` to `t`. -/
def StepsTo : Nat → State → State → Prop
  | 0, s, t => t = s
  | n + 1, s, t => ∃ u, step s = .next u ∧ StepsTo n u t

/-- `n` steps lead from `s` to `t`, and STEP answers `Progressed(Running)` for each of them. -/
def ProgressesTo : Nat → State → State → Prop
  | 0, s, t => t = s
  | n + 1, s, t => ∃ u, stepReply s = .next (.progressed .running, u) ∧ ProgressesTo n u t

/-- The inputs a transaction with this response has queued: ADD_INPUTS' values where it responds `Ok` (R198, R201). -/
def acceptedInputs : Transaction → Response → List Word
  | .addInputs vs, .ok => vs
  | _, _ => []

/-- The outputs a transaction with this response has handed the host (R195, R199). -/
def handedOutputs : Transaction → Response → List Word
  | .drainOutputs, .values vs => vs
  | .runUntilOutput, .value v => [v]
  | _, _ => []

/-- RUN returns response `r` and leaves `t` (R192): for some fuel the loop ends so. -/
def RunReturns (s : State) (r : Response) (t : State) : Prop := ∃ fuel, run fuel s = some (.next (r, t))

/-- RUN never returns (R214). -/
def RunNeverReturns (s : State) : Prop := ∀ fuel, run fuel s = none

/-- `n` steps from `s` never latch a fatal error: a safe run. -/
def safeRun : Nat → State → Bool
  | 0, s => !s.faulted
  | n + 1, s =>
    !s.faulted &&
      match step s with
      | .next s' => safeRun n s'
      | .fault _ => false
      | .refused _ => false

/-- The states an instance can be in from its first LOAD on: any transactions in any order (R184, R211). -/
inductive Reachable : State → Prop where
  | load (s t : State) (snapshot : List Word) (legal : s.cfg.legal) (h : load snapshot s = (.ok, t)) : Reachable t
  | transact (s t : State) (fuel : Nat) (tr : Transaction) (r : Response) (hs : Reachable s)
      (h : transact fuel tr s = some (.next (r, t))) : Reachable t

end Sys2Proof.Machine
end

