-- ==== Sys2Proof/Certificates/Slice0/Obligations.lean ====
section
/-! DEFINITION. The statements for the provers. They hold for every value of MEM_CAP, IN_DEPTH and OUT_DEPTH, which
every state carries (log entry 1). An instruction's statement is about `exec i s`, with `s` the state the front end
hands on; `StepRunsTheDecodedInstruction` joins the two. A rule that the spec marks [decision] or [derived] is the spec's
own choice or inference (R17): a statement that rests on one has basis 'derived', and its entry in OBLIGATIONS.json names
the mark. -/

open Sys2Proof Sys2Proof.Machine

/-! ## Encoding -/

/-- No bit of an encoding is dropped: the decoder gives a well-formed instruction back from its words, and leaves the
words after them (R81, R84, R102). -/
def Obligations.DecodeOfEncodeIsTheInstruction : Prop :=
  ∀ (i : Instr) (rest : List Word), i.wellFormed = true → decode (encode i ++ rest) = .ok (i, rest)

/-- The decoder accepts nothing but encodings of well-formed instructions (R86, R87, R99). -/
def Obligations.DecodedWordsAreAnEncoding : Prop :=
  ∀ (ws rest : List Word) (i : Instr), decode ws = .ok (i, rest) → i.wellFormed = true ∧ ws = encode i ++ rest

/-- The legal instruction words, opcode by opcode, are 99 and no other word is legal (R86: "Legal instruction words:
there are exactly 99", derived there from R81 to R83, R88, R89, R90 and R95). -/
def Obligations.LegalWordsAreExactlyNinetyNine : Prop :=
  let legal : List Nat :=
    ([1, 2, 7, 8].flatMap fun o => [0, 1, 2].flatMap fun A => [0, 1, 2].flatMap fun B => [0, 2].map fun C =>
      o + 100 * A + 1000 * B + 10000 * C)
    ++ ([5, 6].flatMap fun o => [0, 1, 2].flatMap fun A => [0, 1, 2].map fun B => o + 100 * A + 1000 * B)
    ++ [3, 203] ++ [4, 104, 204] ++ [9, 109, 209] ++ [99]
  legal.length = 99 ∧ legal.Nodup ∧
    ∀ w : Word, (∃ h, decodeHead w = .ok h) ↔ ∃ n ∈ legal, w.toInt = (n : Int)

/-- A few words written out from the digits of R81, R90, R95 and R102 decode to what they stand for, or are refused by
the right name. -/
def Obligations.SampleWordsDecodeAsWritten : Prop :=
  decode [21201, 3, 7, -1] = .ok (.add (.rel 3) (.imm 7) (.rel (-1)), [])
  ∧ decode [104, 5] = .ok (.output (.imm 5), [])
  ∧ decode [99] = .ok (.hlt, [])
  ∧ decode [1105, 1, 7] = .ok (.jt (.imm 1) (.imm 7), [])
  ∧ decodeHead 22201 = .ok ⟨.add, [.relative, .relative, .relative]⟩
  ∧ decodeHead 199 = .error .excessDigits
  ∧ decodeHead 10104 = .error .excessDigits
  ∧ decodeHead 11101 = .error .immediateWrite
  ∧ decodeHead 304 = .error .badModeDigit
  ∧ decodeHead 100 = .error .unknownOpcode
  ∧ decodeHead (-1) = .error .negativeWord

/-! ## The front end of a step -/

/-- A step runs the decoded instruction (R91, R186): where the words at the pc decode to `i` and all lie below
MEM_CAP, `step` is `exec i` on the state with memory grown over those words. -/
def Obligations.StepRunsTheDecodedInstruction : Prop :=
  ∀ (s : State) (i : Instr), ready s = true → 0 ≤ s.pc.toInt → s.pc.toInt + i.length ≤ s.cfg.memCap →
    decode (wordsAt s s.pc.toInt.toNat i.length) = .ok (i, []) →
    step s = exec i { s with memLen := max s.memLen (s.pc.toInt.toNat + i.length) }

/-- The instruction a step runs has the word that was fetched, and this is the word an error of it records (R87, R231
to R234). -/
def Obligations.FetchedInstructionHasTheFetchedWord : Prop :=
  ∀ (s t : State) (i : Instr), fetchInstr s = .fetched i t →
    i.word = s.mem.read s.pc.toInt.toNat ∧ i.wellFormed = true ∧ t.pc = s.pc ∧ t.mem = s.mem

/-- The sequential advance of an instruction that could be fetched does not wrap and stays in `i64` (R24, the spec's
own inference: "pc does not wrap"). -/
def Obligations.SequentialPcDoesNotWrap : Prop :=
  ∀ (s t : State) (i : Instr), s.cfg.legal = true → fetchInstr s = .fetched i t →
    (t.pcAfter i.length).toInt = s.pc.toInt + i.length ∧ s.pc.toInt + i.length ≤ s.cfg.memCap
      ∧ s.pc.toInt + i.length ≤ 2 ^ 62

/-- The fetch at an illegal pc is a fatal error about the pc, with `word = 0`, and grows nothing (R232, R233, R240).
-/
def Obligations.FetchAtAnIllegalPcIsLatched : Prop :=
  ∀ s : State, ready s = true →
    (s.pc.toInt < 0 → step s = .next { s with fault := ⟨.invalidAddress, s.pc, 0⟩ })
    ∧ ((s.cfg.memCap : Int) ≤ s.pc.toInt → step s = .next { s with fault := ⟨.capacityExceeded, s.pc, 0⟩ })

/-- An illegal instruction word is the fatal error `InvalidOpcode(w, pc)`, and memory has grown by the fetch (R87,
R99, R231, R240); a negative word is one (R88, the spec's decision D6). -/
def Obligations.IllegalWordIsLatched : Prop :=
  ∀ s : State, ready s = true → 0 ≤ s.pc.toInt → s.pc.toInt < s.cfg.memCap →
    ((∃ e, decodeHead (s.mem.read s.pc.toInt.toNat) = .error e) ∨ (s.mem.read s.pc.toInt.toNat).toInt < 0) →
    step s = .next
      { s with
        memLen := max s.memLen (s.pc.toInt.toNat + 1)
        fault := ⟨.invalidOpcode, s.pc, s.mem.read s.pc.toInt.toNat⟩ }

/-- A literal at or above MEM_CAP is `CapacityExceeded` at the first such address, MEM_CAP itself, with the
instruction word; memory has grown over the words fetched before (R91, R233, R240). -/
def Obligations.LiteralBeyondCapacityIsLatched : Prop :=
  ∀ (s : State) (h : Head), s.cfg.legal = true → ready s = true → 0 ≤ s.pc.toInt → s.pc.toInt < s.cfg.memCap →
    decodeHead (s.mem.read s.pc.toInt.toNat) = .ok h → (s.cfg.memCap : Int) ≤ s.pc.toInt + h.op.nparams →
    step s = .next
      { s with
        memLen := max s.memLen s.cfg.memCap
        fault := ⟨.capacityExceeded, Word.ofInt s.cfg.memCap, s.mem.read s.pc.toInt.toNat⟩ }

/-! ## The gate: not loaded, faulted, Stopped -/

/-- R189 and R172: a step or a run of a Stopped instance returns `StoppedError` and changes nothing, the latch
included. RUN_UNTIL_OUTPUT of one stands in `RunEndsAsItSays`. -/
def Obligations.StoppedStepChangesNothing : Prop :=
  ∀ (s : State) (fuel : Nat), s.loaded = true → s.fault.kind = .none → s.state = .stopped →
    step s = .next s ∧ stepReply s = .next (.stoppedError, s)
    ∧ transact fuel .step s = some (.next (.stoppedError, s))
    ∧ transact fuel .run s = some (.next (.stoppedError, s))

/-- The latch is sticky (R190, R241, the spec's decision D10): STEP, RUN and RUN_UNTIL_OUTPUT return the same `Fatal`
and change nothing, the other transactions answer something else and keep the latch, and LOAD clears it. -/
def Obligations.OnlyLoadClearsTheLatch : Prop :=
  ∀ (s : State) (fuel : Nat), s.loaded = true → s.fault.kind ≠ .none →
    step s = .next s
    ∧ (∀ tr ∈ [Transaction.step, .run, .runUntilOutput],
      transact fuel tr s = some (.next (.fatal s.fault, s)))
    ∧ (∀ tr, tr ≠ .step → tr ≠ .run → tr ≠ .runUntilOutput → tr.isLoad = false →
        ∃ r t, transact fuel tr s = some (.next (r, t)) ∧ t.fault = s.fault ∧ r ≠ .fatal s.fault)
    ∧ (∀ snapshot t, transact fuel (.load snapshot) s = some (.next (.ok, t)) → t.fault = FaultRecord.clear)

/-- A transaction that is refused changes nothing (the spec's decisions D31 and D39): before the first LOAD every
other transaction responds `NotLoaded`, whatever the other elements hold (R212); LOAD of a snapshot that does not fit
responds `LoadRefused` (R207). -/
def Obligations.RefusedTransactionsChangeNothing : Prop :=
  ∀ (s : State) (fuel : Nat),
    (∀ tr, s.loaded = false → tr.isLoad = false → transact fuel tr s = some (.next (.notLoaded, s)))
    ∧ ∀ snapshot, s.cfg.memCap < snapshot.length →
        transact fuel (.load snapshot) s = some (.next (.loadRefused, s))

/-! ## ADD and MUL -/

/-- ADD completes wherever its operands resolve and the exact sum is representable, and this is all it does (R120,
R122). -/
def Obligations.AddStoresTheExactSum : Prop :=
  ∀ (a b dst : Param) (s : State), readable a s = true → readable b s = true → writable dst s = true →
    inRange64 ((operandValue a s).toInt + (operandValue b s).toInt) = true →
    exec (.add a b dst) s = .next
      { s with
        mem := s.mem.write (destination dst s) (Word.ofInt ((operandValue a s).toInt + (operandValue b s).toInt))
        memLen := lenAfter dst s (lenAfter b s (lenAfter a s s.memLen))
        pc := s.pc + 4
        state := .running }

/-- MUL completes wherever its operands resolve and the exact product is representable, and this is all it does (R121,
R122). -/
def Obligations.MulStoresTheExactProduct : Prop :=
  ∀ (a b dst : Param) (s : State), readable a s = true → readable b s = true → writable dst s = true →
    inRange64 ((operandValue a s).toInt * (operandValue b s).toInt) = true →
    exec (.mul a b dst) s = .next
      { s with
        mem := s.mem.write (destination dst s) (Word.ofInt ((operandValue a s).toInt * (operandValue b s).toInt))
        memLen := lenAfter dst s (lenAfter b s (lenAfter a s s.memLen))
        pc := s.pc + 4
        state := .running }

/-- A sum or product outside `i64` raises `ArithmeticOverflow` with `addr = pc` and `word = w`; nothing is written,
and pc, rb, state and the queues are unchanged (R123, the spec's decision D3). -/
def Obligations.OverflowOfAddAndMulIsLatched : Prop :=
  ∀ (a b dst : Param) (s : State), readable a s = true → readable b s = true → writable dst s = true →
    (inRange64 ((operandValue a s).toInt + (operandValue b s).toInt) = false →
      exec (.add a b dst) s = .next
        { s with
          memLen := lenAfter b s (lenAfter a s s.memLen)
          fault := ⟨.arithmeticOverflow, s.pc, (Instr.add a b dst).word⟩ })
    ∧ (inRange64 ((operandValue a s).toInt * (operandValue b s).toInt) = false →
      exec (.mul a b dst) s = .next
        { s with
          memLen := lenAfter b s (lenAfter a s s.memLen)
          fault := ⟨.arithmeticOverflow, s.pc, (Instr.mul a b dst).word⟩ })

/-- R124 (derived there from R97): the word stored is the sum or product of the values before the instruction, also
where the destination is the address of an operand. -/
def Obligations.DestinationMayBeAnOperand : Prop :=
  ∀ (a b dst : Param) (s : State), s.mem.wf = true → readable a s = true → readable b s = true →
    writable dst s = true →
    (inRange64 ((operandValue a s).toInt + (operandValue b s).toInt) = true →
      ∃ t, exec (.add a b dst) s = .next t
        ∧ (t.mem.read (destination dst s)).toInt = (operandValue a s).toInt + (operandValue b s).toInt)
    ∧ (inRange64 ((operandValue a s).toInt * (operandValue b s).toInt) = true →
      ∃ t, exec (.mul a b dst) s = .next t
        ∧ (t.mem.read (destination dst s)).toInt = (operandValue a s).toInt * (operandValue b s).toInt)

/-! ## LT and EQ -/

/-- LT completes wherever its operands resolve: it stores 1 if a < b (signed) and 0 if not, and this is all it does
(R150). -/
def Obligations.LtStoresTheSignedComparison : Prop :=
  ∀ (a b dst : Param) (s : State), readable a s = true → readable b s = true → writable dst s = true →
    exec (.lt a b dst) s = .next
      { s with
        mem := s.mem.write (destination dst s)
          (if (operandValue a s).toInt < (operandValue b s).toInt then 1 else 0)
        memLen := lenAfter dst s (lenAfter b s (lenAfter a s s.memLen))
        pc := s.pc + 4
        state := .running }

/-- EQ completes wherever its operands resolve: it stores 1 if a = b and 0 if not, and this is all it does (R151). -/
def Obligations.EqStoresTheEquality : Prop :=
  ∀ (a b dst : Param) (s : State), readable a s = true → readable b s = true → writable dst s = true →
    exec (.eq a b dst) s = .next
      { s with
        mem := s.mem.write (destination dst s) (if operandValue a s = operandValue b s then 1 else 0)
        memLen := lenAfter dst s (lenAfter b s (lenAfter a s s.memLen))
        pc := s.pc + 4
        state := .running }

/-- R152: LT compares signed; LT and EQ leave exactly 0 or 1 at the destination, and raise nothing where their
operands resolve. -/
def Obligations.ComparisonsWriteZeroOrOne : Prop :=
  ∀ (a b dst : Param) (s : State), s.mem.wf = true → readable a s = true → readable b s = true →
    writable dst s = true →
    (∃ t, exec (.lt a b dst) s = .next t ∧ t.fault = s.fault
      ∧ (t.mem.read (destination dst s) = 0 ∨ t.mem.read (destination dst s) = 1)
      ∧ (t.mem.read (destination dst s) = 1 ↔ (operandValue a s).toInt < (operandValue b s).toInt))
    ∧ (∃ t, exec (.eq a b dst) s = .next t ∧ t.fault = s.fault
      ∧ (t.mem.read (destination dst s) = 0 ∨ t.mem.read (destination dst s) = 1)
      ∧ (t.mem.read (destination dst s) = 1 ↔ operandValue a s = operandValue b s))

/-! ## IN and OUT -/

/-- IN with an input queued completes wherever its destination resolves: the oldest input is stored and removed
(R130). -/
def Obligations.InputStoresTheOldestInput : Prop :=
  ∀ (dst : Param) (s : State) (v : Word) (rest : List Word), s.inQ = v :: rest → writable dst s = true →
    exec (.input dst) s = .next
      { s with
        mem := s.mem.write (destination dst s) v
        memLen := lenAfter dst s s.memLen
        pc := s.pc + 2
        inQ := rest
        state := .running }

/-- IN with an empty queue blocks, whatever its destination: only `state` changes (R130, R238). -/
def Obligations.InputBlocksOnAnEmptyQueue : Prop :=
  ∀ (dst : Param) (s : State), s.inQ = [] → exec (.input dst) s = .next { s with state := .waitingForInput }

/-- OUT with room in the output queue completes wherever its operand resolves: the value is appended (R131). -/
def Obligations.OutputAppendsItsOperand : Prop :=
  ∀ (a : Param) (s : State), outFull s = false → readable a s = true →
    exec (.output a) s = .next
      { s with
        memLen := lenAfter a s s.memLen
        pc := s.pc + 2
        outQ := s.outQ ++ [operandValue a s]
        state := .running }

/-- OUT never waits with OUT_DEPTH = INF, nor at a finite OUT_DEPTH that the queue's length differs from; at a finite
OUT_DEPTH that is reached it blocks and changes nothing, not even `state`, whatever its operand (R131, R203). -/
def Obligations.OutputWaitsOnlyOnAFullQueue : Prop :=
  ∀ s : State,
    (s.cfg.outDepth = .inf → outFull s = false)
    ∧ (∀ d : Nat, s.cfg.outDepth = .words d → s.outQ.length ≠ d → outFull s = false)
    ∧ ∀ (d : Nat) (a : Param), s.cfg.outDepth = .words d → s.outQ.length = d →
        outFull s = true ∧ exec (.output a) s = .next s

/-- A value goes through unchanged: IN then OUT of the same Position cell appends to OutQ exactly the value taken from
InQ (R133). -/
def Obligations.InputThenOutputYieldsTheValue : Prop :=
  ∀ (d : Word) (s : State) (x : Word) (rest : List Word), s.mem.wf = true → s.inQ = x :: rest →
    addressOk s d.toInt = true → outFull s = false →
    ∃ t u, exec (.input ⟨.position, d⟩) s = .next t ∧ exec (.output ⟨.position, d⟩) t = .next u
      ∧ u.inQ = rest ∧ u.outQ = s.outQ ++ [x]

/-- Suspend and resume (R133, R188, R278): a step at an Input with an empty queue blocks with the pc at the Input;
after the host adds one value, the next step completes the Input with that value, once, and advances the pc once. -/
def Obligations.BlockedInputResumesExactlyOnce : Prop :=
  ∀ (s : State) (dst : Param) (v : Word), s.mem.wf = true → s.cfg.legal = true → ready s = true → s.inQ = [] →
    0 ≤ s.pc.toInt → s.pc.toInt + 2 ≤ s.cfg.memCap →
    decode (wordsAt s s.pc.toInt.toNat 2) = .ok (.input dst, []) → writable dst s = true →
    ∃ s1 s2 t, stepReply s = .next (.blocked .noInput, s1)
      ∧ s1.state = .waitingForInput ∧ s1.pc = s.pc ∧ s1.mem = s.mem
      ∧ addInputs [v] s1 = (.ok, s2) ∧ s2.state = .waitingForInput
      ∧ stepReply s2 = .next (.progressed .running, t)
      ∧ t.inQ = [] ∧ t.pc.toInt = s.pc.toInt + 2 ∧ t.mem.read (destination dst s) = v
      ∧ ∀ x, x ≠ destination dst s → t.mem.read x = s.mem.read x

/-- R202 and R204. A step leaves the input queue, or runs an Input that stores the value it removes from the front; it
leaves the output queue, or runs an Output that appends its operand's value at the end. An Input with an input queued
that latches no error does remove and store it, and an Output with room that latches no error does append. Over any
transaction but LOAD, what enters the input queue is exactly what ADD_INPUTS was accepted with and what leaves the
output queue is exactly what the response hands the host; values are taken from the front and added at the end, and
only STEP, RUN and RUN_UNTIL_OUTPUT take inputs or add outputs. -/
def Obligations.QueuesKeepTheirOrder : Prop :=
  (∀ s t : State, step s = .next t →
    (t.inQ = s.inQ
      ∨ ∃ v dst u, s.inQ = v :: t.inQ ∧ fetchInstr s = .fetched (.input dst) u
          ∧ t.mem = s.mem.write (destination dst s) v ∧ t.fault = s.fault)
    ∧ (t.outQ = s.outQ
      ∨ ∃ a u, fetchInstr s = .fetched (.output a) u ∧ t.outQ = s.outQ ++ [operandValue a s] ∧ t.fault = s.fault)
    ∧ (∀ v rest dst u, ready s = true → fetchInstr s = .fetched (.input dst) u → s.inQ = v :: rest →
        t.fault.kind = .none → t.inQ = rest ∧ t.mem = s.mem.write (destination dst s) v)
    ∧ ∀ a u, ready s = true → fetchInstr s = .fetched (.output a) u → outFull s = false → t.fault.kind = .none →
        t.outQ = s.outQ ++ [operandValue a s])
  ∧ ∀ (s t : State) (fuel : Nat) (tr : Transaction) (r : Response), transact fuel tr s = some (.next (r, t)) →
    tr.isLoad = false →
    (∃ taken, s.inQ ++ acceptedInputs tr r = taken ++ t.inQ
      ∧ (taken = [] ∨ tr ∈ [Transaction.step, .run, .runUntilOutput]))
    ∧ ∃ added, s.outQ ++ added = handedOutputs tr r ++ t.outQ
        ∧ (added = [] ∨ tr ∈ [Transaction.step, .run, .runUntilOutput])

/-! ## JT and JF -/

/-- JT completes wherever both operands resolve: to the target if `a` is not 0, else past its three words (R140). -/
def Obligations.JtJumpsWhenNonzero : Prop :=
  ∀ (a target : Param) (s : State), readable a s = true → readable target s = true →
    exec (.jt a target) s = .next
      { s with
        memLen := lenAfter target s (lenAfter a s s.memLen)
        pc := if operandValue a s ≠ 0 then operandValue target s else s.pc + 3
        state := .running }

/-- JF completes wherever both operands resolve: to the target if `a` is 0, else past its three words (R141). -/
def Obligations.JfJumpsWhenZero : Prop :=
  ∀ (a target : Param) (s : State), readable a s = true → readable target s = true →
    exec (.jf a target) s = .next
      { s with
        memLen := lenAfter target s (lenAfter a s s.memLen)
        pc := if operandValue a s = 0 then operandValue target s else s.pc + 3
        state := .running }

/-- Any value is a legal target and is loaded into the pc (R142, derived there from R22 and R51); a target that is no
legal fetch address fails at the next step's fetch, and one beyond the memory's length is fetched as 0 and is
`InvalidOpcode(0, t)`. `i` is a jump that is taken. -/
def Obligations.IllegalTargetFailsAtTheNextFetch : Prop :=
  ∀ (a target : Param) (s : State) (i : Instr), s.inv = true → ready s = true →
    readable a s = true → readable target s = true →
    (i = .jt a target ∧ operandValue a s ≠ 0 ∨ i = .jf a target ∧ operandValue a s = 0) →
    ∃ u, exec i s = .next u ∧ u.pc = operandValue target s ∧ u.fault = s.fault
      ∧ (u.pc.toInt < 0 → step u = .next { u with fault := ⟨.invalidAddress, u.pc, 0⟩ })
      ∧ ((s.cfg.memCap : Int) ≤ u.pc.toInt → step u = .next { u with fault := ⟨.capacityExceeded, u.pc, 0⟩ })
      ∧ ((u.memLen : Int) ≤ u.pc.toInt → u.pc.toInt < s.cfg.memCap →
          step u = .next { u with memLen := u.pc.toInt.toNat + 1, fault := ⟨.invalidOpcode, u.pc, 0⟩ })

/-- A jump to itself that is taken runs forever: RUN never returns (R143, R214). It is any JT or JF, with operands of
any form: a jump stores nothing, so it stays taken. -/
def Obligations.JumpToItselfNeverReturns : Prop :=
  ∀ (s : State) (i : Instr) (a target : Param), ready s = true → 0 ≤ s.pc.toInt → s.pc.toInt + 3 ≤ s.cfg.memCap →
    decode (wordsAt s s.pc.toInt.toNat 3) = .ok (i, []) →
    (i = .jt a target ∧ operandValue a s ≠ 0 ∨ i = .jf a target ∧ operandValue a s = 0) →
    readable a s = true → readable target s = true → operandValue target s = s.pc →
    RunNeverReturns s

/-! ## ARB and HLT -/

/-- ARB completes wherever its operand resolves, with the old rb, and rb + a is representable: rb is the sum, and this
is all it does (R160). -/
def Obligations.ArbAddsToTheRelativeBase : Prop :=
  ∀ (a : Param) (s : State), readable a s = true → inRange64 (s.rb.toInt + (operandValue a s).toInt) = true →
    exec (.arb a) s = .next
      { s with
        memLen := lenAfter a s s.memLen
        rb := Word.ofInt (s.rb.toInt + (operandValue a s).toInt)
        pc := s.pc + 2
        state := .running }

/-- rb + a outside `i64` raises `ArithmeticOverflow` with `addr = pc`, `word = w`, and leaves rb and pc (R161, the
spec's decisions D2 and D3). -/
def Obligations.ArbOverflowIsLatched : Prop :=
  ∀ (a : Param) (s : State), readable a s = true → inRange64 (s.rb.toInt + (operandValue a s).toInt) = false →
    exec (.arb a) s = .next
      { s with
        memLen := lenAfter a s s.memLen
        fault := ⟨.arithmeticOverflow, s.pc, (Instr.arb a).word⟩ }

/-- HLT completes in every state: Stopped, with the pc after the Halt word (the spec's decision D22), and nothing else
(R170, R171). -/
def Obligations.HltStopsAfterItsWord : Prop :=
  ∀ s : State, exec .hlt s = .next { s with pc := s.pc + 1, state := .stopped }

/-! ## Operand errors -/

/-- The first operand that does not resolve decides the error of ADD, MUL, LT and EQ (R97, R237, R240): memory has
grown by the operands before it, and nothing else changes but the latch. The address recorded is `latchAddr` of the
exact one (see `LatchRecordsTheExactAddress`). -/
def Obligations.StoringOperandErrorsInOrder : Prop :=
  ∀ (a b dst : Param) (s : State), ∀ i ∈ [Instr.add a b dst, .mul a b dst, .lt a b dst, .eq a b dst],
    (readable a s = false →
      exec i s = .next
        { s with
          fault := ⟨if operandAddress a s < 0 then .invalidAddress else .capacityExceeded,
            latchAddr (operandAddress a s), i.word⟩ })
    ∧ (readable a s = true → readable b s = false →
      exec i s = .next
        { s with
          memLen := lenAfter a s s.memLen
          fault := ⟨if operandAddress b s < 0 then .invalidAddress else .capacityExceeded,
            latchAddr (operandAddress b s), i.word⟩ })
    ∧ (readable a s = true → readable b s = true → dst.mode ≠ .immediate → writable dst s = false →
      exec i s = .next
        { s with
          memLen := lenAfter b s (lenAfter a s s.memLen)
          fault := ⟨if operandAddress dst s < 0 then .invalidAddress else .capacityExceeded,
            latchAddr (operandAddress dst s), i.word⟩ })

/-- The operand errors of OUT, ARB, JT and JF (R97, R237, R240); a jump resolves its target taken or not, and only OUT
looks at the output queue first. -/
def Obligations.ReadingOperandErrorsInOrder : Prop :=
  ∀ (a target : Param) (s : State),
    (∀ i ∈ [Instr.output a, .arb a, .jt a target, .jf a target],
      (i = .output a → outFull s = false) → readable a s = false →
      exec i s = .next
        { s with
          fault := ⟨if operandAddress a s < 0 then .invalidAddress else .capacityExceeded,
            latchAddr (operandAddress a s), i.word⟩ })
    ∧ (∀ i ∈ [Instr.jt a target, .jf a target], readable a s = true → readable target s = false →
      exec i s = .next
        { s with
          memLen := lenAfter a s s.memLen
          fault := ⟨if operandAddress target s < 0 then .invalidAddress else .capacityExceeded,
            latchAddr (operandAddress target s), i.word⟩ })

/-- IN with an input queued and a destination that does not resolve is that address's error and consumes no input
(R130, R237, R240). -/
def Obligations.InputErrorConsumesNothing : Prop :=
  ∀ (dst : Param) (s : State), s.inQ ≠ [] → dst.mode ≠ .immediate → writable dst s = false →
    exec (.input dst) s = .next
      { s with
        fault := ⟨if operandAddress dst s < 0 then .invalidAddress else .capacityExceeded,
          latchAddr (operandAddress dst s), (Instr.input dst).word⟩ }

/-- An error about an address in `i64` records it exactly (R27, R232, R233); of an address outside `i64` the model
says nothing (log entry 7). -/
def Obligations.LatchRecordsTheExactAddress : Prop :=
  ∀ (s : State) (k : FaultKind) (a : Int) (w : Word), inRange64 a = true →
    (s.latch k a w).fault.kind = k ∧ (s.latch k a w).fault.addr.toInt = a ∧ (s.latch k a w).fault.word = w

/-! ## Frames -/

/-- ADD, MUL, LT and EQ leave every cell but their destination's, rb, the queues, the loaded flag and the parameters;
memory does not shrink; and either the latch is unchanged and state is Running, or memory's contents, pc and state are
unchanged (R23, R34, R54, R240). -/
def Obligations.StoringInstructionsFrame : Prop :=
  ∀ (a b dst : Param) (s t : State), ∀ i ∈ [Instr.add a b dst, .mul a b dst, .lt a b dst, .eq a b dst],
    exec i s = .next t →
    (∀ x, x ≠ destination dst s → t.mem.read x = s.mem.read x)
    ∧ t.rb = s.rb ∧ t.inQ = s.inQ ∧ t.outQ = s.outQ ∧ t.loaded = s.loaded ∧ t.cfg = s.cfg ∧ s.memLen ≤ t.memLen
    ∧ (t.fault = s.fault ∧ t.state = .running ∨ t.mem = s.mem ∧ t.pc = s.pc ∧ t.state = s.state)

/-- IN leaves every cell but its destination's, rb, the output queue, the loaded flag and the parameters; memory does
not shrink. Where it blocks it changes `state` only; where it latches an error, not `state` either; else it removes
the oldest input (R34, R54, R130, R240). -/
def Obligations.InputFrame : Prop :=
  ∀ (dst : Param) (s t : State), exec (.input dst) s = .next t →
    (∀ x, x ≠ destination dst s → t.mem.read x = s.mem.read x)
    ∧ t.rb = s.rb ∧ t.outQ = s.outQ ∧ t.loaded = s.loaded ∧ t.cfg = s.cfg ∧ s.memLen ≤ t.memLen
    ∧ (t.fault = s.fault ∧ t.state = .running ∧ t.inQ = s.inQ.tail
      ∨ t.mem = s.mem ∧ t.pc = s.pc ∧ t.inQ = s.inQ
        ∧ (s.inQ = [] ∧ t.fault = s.fault ∧ t.state = .waitingForInput ∨ s.inQ ≠ [] ∧ t.state = s.state))

/-- OUT, JT, JF, ARB and HLT store nothing: every cell, the input queue, the loaded flag and the parameters are
unchanged, and memory does not shrink; only OUT touches the output queue and only ARB touches rb; an error or a block
leaves the queues, rb, pc and state (R25, R34, R54, R63, R240). -/
def Obligations.NonStoringInstructionsFrame : Prop :=
  ∀ (a target : Param) (s t : State), ∀ i ∈ [Instr.output a, .jt a target, .jf a target, .arb a, .hlt],
    exec i s = .next t →
    (∀ x, t.mem.read x = s.mem.read x) ∧ t.inQ = s.inQ ∧ t.loaded = s.loaded ∧ t.cfg = s.cfg ∧ s.memLen ≤ t.memLen
    ∧ (i ≠ .output a → t.outQ = s.outQ) ∧ (i ≠ .arb a → t.rb = s.rb)
    ∧ (t.fault = s.fault ∧ t.state = (if i = .hlt then .stopped else .running)
      ∨ t.outQ = s.outQ ∧ t.rb = s.rb ∧ t.pc = s.pc ∧ t.state = s.state)

/-! ## Whole-machine rules -/

/-- Every state has a next state: no step ends in a fault or a refusal, so no instruction is left without a meaning
(R186, R281). -/
def Obligations.EveryStateHasANextState : Prop := ∀ s : State, ∃ t, step s = .next t

/-- Errors are precise (R240): a step that latches a fatal error changes nothing but the latch and the memory's
length, which does not shrink. -/
def Obligations.FatalStepChangesOnlyLatchAndLength : Prop :=
  ∀ s t : State, step s = .next t → s.fault.kind = .none → t.fault.kind ≠ .none →
    t = { s with memLen := t.memLen, fault := t.fault } ∧ s.memLen ≤ t.memLen

/-- A blocked step changes nothing but the memory's length and, for an empty input queue only, `state` (R240). -/
def Obligations.BlockedStepChangesOnlyStateAndLength : Prop :=
  ∀ s t : State,
    (stepReply s = .next (.blocked .noInput, t) →
      t = { s with memLen := t.memLen, state := .waitingForInput } ∧ s.memLen ≤ t.memLen ∧ s.inQ = [])
    ∧ (stepReply s = .next (.blocked .outputFull, t) →
      t = { s with memLen := t.memLen } ∧ s.memLen ≤ t.memLen ∧ outFull s = true)

/-- What a step of a ready state answers tells how it ended (R183, R186): `Fatal` exactly where an error is latched,
`Progressed` with the state it leaves, a block only without an error. -/
def Obligations.StepResponseTellsTheOutcome : Prop :=
  ∀ s : State, ready s = true → ∃ r t, stepReply s = .next (r, t) ∧ step s = .next t
    ∧ (t.fault.kind ≠ .none ∧ r = .fatal t.fault
      ∨ t.fault.kind = .none ∧ (r = .progressed .running ∧ t.state = .running
        ∨ r = .progressed .stopped ∧ t.state = .stopped
        ∨ r = .blocked .noInput ∧ t.state = .waitingForInput
        ∨ r = .blocked .outputFull ∧ t.state = s.state))

/-- Memory never shrinks but by LOAD, and the parameters never change (R12, R54). -/
def Obligations.MemoryNeverShrinks : Prop :=
  ∀ (s t : State) (fuel : Nat) (tr : Transaction) (r : Response), transact fuel tr s = some (.next (r, t)) →
    t.cfg = s.cfg ∧ (tr.isLoad = false → s.memLen ≤ t.memLen)

/-- Stopped is terminal but for LOAD (R26, R172). -/
def Obligations.StoppedIsTerminal : Prop :=
  ∀ (s t : State) (fuel : Nat) (tr : Transaction) (r : Response), s.state = .stopped → tr.isLoad = false →
    transact fuel tr s = some (.next (r, t)) → t.state = .stopped ∧ t.pc = s.pc ∧ t.rb = s.rb

/-- Reset meets the invariant. -/
def Obligations.InvariantHoldsAtReset : Prop := State.reset.inv = true

/-- Every step keeps the invariant (R12, R27, R30, R31, R213). -/
def Obligations.StepKeepsTheInvariant : Prop := ∀ s t : State, s.inv = true → step s = .next t → t.inv = true

/-- Every state an instance can be in from its first LOAD on, under any transactions in any order, is loaded and meets
the invariant. -/
def Obligations.ReachableStatesMeetTheInvariant : Prop := ∀ s : State, Reachable s → s.loaded = true ∧ s.inv = true

/-- A store is seen by the very next fetch (R68, R277): an ADD whose sum 99 goes to the word after it makes the next
step halt there. -/
def Obligations.StoreIsSeenByTheNextFetch : Prop :=
  ∀ (a b dst : Param) (s : State), s.mem.wf = true → s.cfg.legal = true → ready s = true → 0 ≤ s.pc.toInt →
    s.pc.toInt + 4 < s.cfg.memCap → readable a s = true → readable b s = true → writable dst s = true →
    (destination dst s : Int) = s.pc.toInt + 4 → (operandValue a s).toInt + (operandValue b s).toInt = 99 →
    ∃ t u, exec (.add a b dst) s = .next t ∧ step t = .next u ∧ u.state = .stopped
      ∧ u.pc.toInt = s.pc.toInt + 5 ∧ u.fault = s.fault

/-! ## The host interface -/

/-- R270: LOAD of a snapshot that fits sets every element; nothing of the previous instance survives. -/
def Obligations.LoadSetsEveryElement : Prop :=
  ∀ (snapshot : List Word) (s : State) (fuel : Nat), snapshot.length ≤ s.cfg.memCap →
    ∃ t, transact fuel (.load snapshot) s = some (.next (.ok, t))
      ∧ (∀ x, t.mem.read x = snapshot.getD x 0) ∧ t.mem.wf = true ∧ t.memLen = snapshot.length
      ∧ t.pc = 0 ∧ t.rb = 0 ∧ t.state = .running ∧ t.inQ = [] ∧ t.outQ = []
      ∧ t.fault = ⟨.none, 0, 0⟩ ∧ t.loaded = true ∧ t.cfg = s.cfg

/-- ADD_INPUTS appends all the values, or none where a finite IN_DEPTH would be exceeded; `state` and everything else
stay, so it wakes nothing (R198, R201, R246). -/
def Obligations.AddInputsAppendsAllOrNone : Prop :=
  ∀ (vs : List Word) (s : State) (fuel : Nat), s.loaded = true →
    (s.cfg.inDepth = .inf →
      transact fuel (.addInputs vs) s = some (.next (.ok, { s with inQ := s.inQ ++ vs })))
    ∧ ∀ d, s.cfg.inDepth = .words d →
      (s.inQ.length + vs.length ≤ d →
        transact fuel (.addInputs vs) s = some (.next (.ok, { s with inQ := s.inQ ++ vs })))
      ∧ (d < s.inQ.length + vs.length → transact fuel (.addInputs vs) s = some (.next (.inputFull, s)))

/-- R199: DRAIN_OUTPUTS returns all buffered outputs, oldest first, and empties the queue, in every state; it changes
nothing else. -/
def Obligations.DrainOutputsReturnsThemAll : Prop :=
  ∀ (s : State) (fuel : Nat), s.loaded = true →
    transact fuel .drainOutputs s = some (.next (.values s.outQ, { s with outQ := [] }))

/-- The host memory port (R208, R209, the spec's decisions D20 and D38). A bad address is answered and not latched; a
write grows memory and changes no other address; a read changes nothing. -/
def Obligations.HostMemoryPort : Prop :=
  ∀ (s : State) (fuel : Nat) (a : Int) (v : Word), s.loaded = true →
    (a < 0 →
      transact fuel (.memRead a) s = some (.next (.addrError .invalidAddress a, s))
      ∧ transact fuel (.memWrite a v) s = some (.next (.addrError .invalidAddress a, s)))
    ∧ (0 ≤ a → (s.cfg.memCap : Int) ≤ a →
      transact fuel (.memRead a) s = some (.next (.addrError .capacityExceeded a, s))
      ∧ transact fuel (.memWrite a v) s = some (.next (.addrError .capacityExceeded a, s)))
    ∧ (0 ≤ a → a < s.cfg.memCap → s.inv = true →
      transact fuel (.memRead a) s
        = some (.next (.value (if a < s.memLen then s.mem.read a.toNat else 0), s))
      ∧ ∃ t, transact fuel (.memWrite a v) s = some (.next (.ok, t))
        ∧ t = { s with mem := t.mem, memLen := max s.memLen (a.toNat + 1) }
        ∧ t.mem.read a.toNat = v ∧ ∀ x, x ≠ a.toNat → t.mem.read x = s.mem.read x)

/-- STATUS shows the loaded flag, the registers, the latch and the lengths with the encodings of R26 and R27, and
changes nothing (R210, the spec's decision D21); IS_RUNNING answers `state ≠ Stopped`, a latched fault or not (R200,
D33). -/
def Obligations.StatusAndIsRunningShowTheInstance : Prop :=
  ∀ (s : State) (fuel : Nat), s.loaded = true →
    transact fuel .isRunning s = some (.next (.isRunning (decide (s.state ≠ .stopped)), s))
    ∧ ∃ r : Status, transact fuel .status s = some (.next (.status r, s))
      ∧ r.loaded = true
      ∧ (s.state = .running → r.state = 0) ∧ (s.state = .waitingForInput → r.state = 1)
      ∧ (s.state = .stopped → r.state = 2)
      ∧ r.pc = s.pc ∧ r.rb = s.rb
      ∧ (s.fault.kind = .none → r.faultKind = 0) ∧ (s.fault.kind = .invalidOpcode → r.faultKind = 1)
      ∧ (s.fault.kind = .invalidAddress → r.faultKind = 2) ∧ (s.fault.kind = .capacityExceeded → r.faultKind = 3)
      ∧ (s.fault.kind = .arithmeticOverflow → r.faultKind = 4)
      ∧ r.faultAddr = s.fault.addr ∧ r.faultWord = s.fault.word ∧ r.memLen = s.memLen
      ∧ r.inLen = s.inQ.length ∧ r.outLen = s.outQ.length

/-- RUN_UNTIL_OUTPUT with a value buffered returns the oldest one without executing an instruction, and leaves the
others in order (R195, R196, the spec's decision D18). -/
def Obligations.RunUntilOutputReturnsABufferedValue : Prop :=
  ∀ (s : State) (fuel : Nat) (v : Word) (rest : List Word), s.loaded = true → s.fault.kind = .none →
    s.outQ = v :: rest → transact fuel .runUntilOutput s = some (.next (.value v, { s with outQ := rest }))

/-- RUN_UNTIL_OUTPUT never answers `Blocked(OutputFull)`, because it steps only while OutQ is empty and a finite
OUT_DEPTH is positive (R12, R194). -/
def Obligations.RunUntilOutputNeverFindsOutputFull : Prop :=
  ∀ (s t : State) (fuel : Nat), s.cfg.legal = true →
    runUntilOutput fuel s ≠ some (.next (.blocked .outputFull, t))

/-- What the responses of RUN and RUN_UNTIL_OUTPUT say of the state they leave (R192, R194, R197, R213): `Halted` and
`NoMoreOutput` a final state, the latter with no output queued, `Blocked` one blocked so (on output: log entry 19),
`Fatal` the latched record. That state is reached by steps: RUN's response is the last step's, `Halted` for a step
that stops, and RUN_UNTIL_OUTPUT's value is taken from the front of the queue the last step leaves. A Stopped instance
with no output queued answers RUN_UNTIL_OUTPUT with `StoppedError`. More fuel never changes an answer (R214). And they
do answer: where steps that progress lead to a step that stops, blocks or fails, RUN answers so with more fuel than
there are such steps before it; RUN_UNTIL_OUTPUT does while no output is queued, and at the first step that leaves one
queued it answers that value. -/
def Obligations.RunEndsAsItSays : Prop :=
  (∀ (s t : State) (fuel : Nat) (r : Response), run fuel s = some (.next (r, t)) →
    (r = .halted → t.final = true)
    ∧ (r = .blocked .noInput → t.blockedOnInput = true)
    ∧ (r = .blocked .outputFull → t.blockedOnOutput = true)
    ∧ (∀ f, r = .fatal f → t.fault = f ∧ f.kind ≠ .none)
    ∧ (∃ n u q, StepsTo n s u ∧ stepReply u = .next (q, t)
        ∧ (q = .progressed .stopped ∧ r = .halted ∨ r = q ∧ ∀ vm, q ≠ .progressed vm))
    ∧ ∀ more, run (fuel + more) s = some (.next (r, t)))
  ∧ (∀ (s t : State) (fuel : Nat) (r : Response), runUntilOutput fuel s = some (.next (r, t)) →
    (r = .noMoreOutput → t.final = true ∧ t.outQ = [])
    ∧ (r = .blocked .noInput → t.blockedOnInput = true)
    ∧ (∀ f, r = .fatal f → t.fault = f ∧ f.kind ≠ .none)
    ∧ (∃ n u, StepsTo n s u
        ∧ ((∃ v, r = .value v ∧ u.outQ = v :: t.outQ ∧ t = { u with outQ := t.outQ }) ∨ (∀ v, r ≠ .value v) ∧ t = u))
    ∧ ∀ more, runUntilOutput (fuel + more) s = some (.next (r, t)))
  ∧ (∀ (s : State) (fuel : Nat), s.loaded = true → s.fault.kind = .none → s.state = .stopped → s.outQ = [] →
      transact fuel .runUntilOutput s = some (.next (.stoppedError, s)))
  ∧ ∀ (s u t : State) (n fuel : Nat) (q : Response), ProgressesTo n s u → stepReply u = .next (q, t) → n < fuel →
      (q = .progressed .stopped → run fuel s = some (.next (.halted, t)))
      ∧ (((∃ b, q = .blocked b) ∨ ∃ f, q = .fatal f) → run fuel s = some (.next (q, t)))
      ∧ (u.outQ = [] →
        (∀ vm v rest, q = .progressed vm → t.outQ = v :: rest →
          runUntilOutput fuel s = some (.next (.value v, { t with outQ := rest })))
        ∧ (q = .progressed .stopped → t.outQ = [] → runUntilOutput fuel s = some (.next (.noMoreOutput, t)))
        ∧ (((∃ b, q = .blocked b) ∨ ∃ f, q = .fatal f) → runUntilOutput fuel s = some (.next (q, t))))

/-- R70: a transaction on one instance of a system is the transaction on that instance alone, and leaves every other
as it is. -/
def Obligations.InstancesShareNothing : Prop :=
  ∀ (sys sys' : List State) (fuel k j : Nat) (tr : Transaction) (r : Response),
    transactOn fuel k tr sys = some (.next (r, sys')) →
    (∃ s t, sys[k]? = some s ∧ transact fuel tr s = some (.next (r, t)) ∧ sys'[k]? = some t)
    ∧ sys'.length = sys.length ∧ (j ≠ k → sys'[j]? = sys[j]?)
end

