-- ==== Sys2Proof/Laws/PerInstr.lean ====
section
/-! SUPPORT. Statements for all instructions, one lemma per constructor: the instruction word decodes to the
instruction's own opcode and modes (R81, R87, R102), and the encoding has the length of R84. -/

namespace Sys2Proof.Laws

/-- The instruction word of a well-formed instruction decodes to its opcode and its parameters' modes. -/
def HeadRoundTrip.Statement (i : Instr) : Prop :=
  i.wellFormed = true → decodeHead i.word = .ok ⟨i.opcode, i.params.map Param.mode⟩

theorem HeadRoundTrip.add (a b dst : Param) : HeadRoundTrip.Statement (.add a b dst) := by
  obtain ⟨ma, la⟩ := a; obtain ⟨mb, lb⟩ := b; obtain ⟨md, ld⟩ := dst
  intro h
  replace h : md ≠ .immediate := by simpa [Instr.wellFormed, Param.writeModeOk] using h
  change decodeHead (Instr.add ⟨ma, 0⟩ ⟨mb, 0⟩ ⟨md, 0⟩).word = .ok ⟨.add, [ma, mb, md]⟩
  cases md <;> first | exact absurd rfl h | (cases mb <;> cases ma <;> decide)

theorem HeadRoundTrip.mul (a b dst : Param) : HeadRoundTrip.Statement (.mul a b dst) := by
  obtain ⟨ma, la⟩ := a; obtain ⟨mb, lb⟩ := b; obtain ⟨md, ld⟩ := dst
  intro h
  replace h : md ≠ .immediate := by simpa [Instr.wellFormed, Param.writeModeOk] using h
  change decodeHead (Instr.mul ⟨ma, 0⟩ ⟨mb, 0⟩ ⟨md, 0⟩).word = .ok ⟨.mul, [ma, mb, md]⟩
  cases md <;> first | exact absurd rfl h | (cases mb <;> cases ma <;> decide)

theorem HeadRoundTrip.input (dst : Param) : HeadRoundTrip.Statement (.input dst) := by
  obtain ⟨md, ld⟩ := dst
  intro h
  replace h : md ≠ .immediate := by simpa [Instr.wellFormed, Param.writeModeOk] using h
  change decodeHead (Instr.input ⟨md, 0⟩).word = .ok ⟨.input, [md]⟩
  cases md <;> first | exact absurd rfl h | decide

theorem HeadRoundTrip.output (a : Param) : HeadRoundTrip.Statement (.output a) := by
  obtain ⟨ma, la⟩ := a
  intro _
  change decodeHead (Instr.output ⟨ma, 0⟩).word = .ok ⟨.output, [ma]⟩
  cases ma <;> decide

theorem HeadRoundTrip.jt (a target : Param) : HeadRoundTrip.Statement (.jt a target) := by
  obtain ⟨ma, la⟩ := a; obtain ⟨mt, lt⟩ := target
  intro _
  change decodeHead (Instr.jt ⟨ma, 0⟩ ⟨mt, 0⟩).word = .ok ⟨.jt, [ma, mt]⟩
  cases mt <;> cases ma <;> decide

theorem HeadRoundTrip.jf (a target : Param) : HeadRoundTrip.Statement (.jf a target) := by
  obtain ⟨ma, la⟩ := a; obtain ⟨mt, lt⟩ := target
  intro _
  change decodeHead (Instr.jf ⟨ma, 0⟩ ⟨mt, 0⟩).word = .ok ⟨.jf, [ma, mt]⟩
  cases mt <;> cases ma <;> decide

theorem HeadRoundTrip.lt (a b dst : Param) : HeadRoundTrip.Statement (.lt a b dst) := by
  obtain ⟨ma, la⟩ := a; obtain ⟨mb, lb⟩ := b; obtain ⟨md, ld⟩ := dst
  intro h
  replace h : md ≠ .immediate := by simpa [Instr.wellFormed, Param.writeModeOk] using h
  change decodeHead (Instr.lt ⟨ma, 0⟩ ⟨mb, 0⟩ ⟨md, 0⟩).word = .ok ⟨.lt, [ma, mb, md]⟩
  cases md <;> first | exact absurd rfl h | (cases mb <;> cases ma <;> decide)

theorem HeadRoundTrip.eq (a b dst : Param) : HeadRoundTrip.Statement (.eq a b dst) := by
  obtain ⟨ma, la⟩ := a; obtain ⟨mb, lb⟩ := b; obtain ⟨md, ld⟩ := dst
  intro h
  replace h : md ≠ .immediate := by simpa [Instr.wellFormed, Param.writeModeOk] using h
  change decodeHead (Instr.eq ⟨ma, 0⟩ ⟨mb, 0⟩ ⟨md, 0⟩).word = .ok ⟨.eq, [ma, mb, md]⟩
  cases md <;> first | exact absurd rfl h | (cases mb <;> cases ma <;> decide)

theorem HeadRoundTrip.arb (a : Param) : HeadRoundTrip.Statement (.arb a) := by
  obtain ⟨ma, la⟩ := a
  intro _
  change decodeHead (Instr.arb ⟨ma, 0⟩).word = .ok ⟨.arb, [ma]⟩
  cases ma <;> decide

theorem HeadRoundTrip.hlt : HeadRoundTrip.Statement .hlt := by
  intro _
  decide

/-- The encoding has `i.length` words, as many as the opcode alone tells (R84). -/
def EncodedLength.Statement (i : Instr) : Prop :=
  (encode i).length = i.length ∧ i.length = 1 + i.opcode.nparams

theorem EncodedLength.add (a b dst : Param) : EncodedLength.Statement (.add a b dst) := ⟨rfl, rfl⟩
theorem EncodedLength.mul (a b dst : Param) : EncodedLength.Statement (.mul a b dst) := ⟨rfl, rfl⟩
theorem EncodedLength.input (dst : Param) : EncodedLength.Statement (.input dst) := ⟨rfl, rfl⟩
theorem EncodedLength.output (a : Param) : EncodedLength.Statement (.output a) := ⟨rfl, rfl⟩
theorem EncodedLength.jt (a target : Param) : EncodedLength.Statement (.jt a target) := ⟨rfl, rfl⟩
theorem EncodedLength.jf (a target : Param) : EncodedLength.Statement (.jf a target) := ⟨rfl, rfl⟩
theorem EncodedLength.lt (a b dst : Param) : EncodedLength.Statement (.lt a b dst) := ⟨rfl, rfl⟩
theorem EncodedLength.eq (a b dst : Param) : EncodedLength.Statement (.eq a b dst) := ⟨rfl, rfl⟩
theorem EncodedLength.arb (a : Param) : EncodedLength.Statement (.arb a) := ⟨rfl, rfl⟩
theorem EncodedLength.hlt : EncodedLength.Statement .hlt := ⟨rfl, rfl⟩

end Sys2Proof.Laws
end

