-- ==== Sys2Proof/Laws/Encoding.lean ====
section
/-! SUPPORT. What the decoder accepts: a decoded word has one legal mode per parameter, and the instruction it makes
has the opcode and the length of the table (R83 to R90). -/

namespace Sys2Proof

/-- The opcode field of each opcode is its own (R85). -/
theorem Opcode.ofCode_code (op : Opcode) : Opcode.ofCode op.code = some op := by cases op <;> rfl

/-- The opcode map is one to one: a field that names an opcode is that opcode's code (R85). -/
theorem Opcode.code_of_ofCode {n : Nat} {op : Opcode} (h : Opcode.ofCode n = some op) : op.code = n := by
  unfold Opcode.ofCode at h
  split at h <;> cases h <;> rfl

/-- A mode digit that is legal is its mode's digit (R82). -/
theorem Mode.digit_of_ofDigit {n : Nat} {m : Mode} (h : Mode.ofDigit n = some m) : m.digit = n := by
  unfold Mode.ofDigit at h
  split at h <;> cases h <;> rfl

/-- The modes of one more parameter (R87). -/
theorem decodeModes_cons {n j : Nat} {kind : ParamKind} {kinds : List ParamKind} {ms : List Mode}
    (h : decodeModes n (kind :: kinds) j = .ok ms) :
    ∃ m ms', ms = m :: ms' ∧ m.digit = digit n j ∧ ¬(kind = .write ∧ m = .immediate) ∧
      decodeModes n kinds (j + 1) = .ok ms' := by
  unfold decodeModes at h
  split at h
  · cases h
  · next m hm =>
    split at h
    · cases h
    · next hw =>
      split at h
      · cases h
      · next ms' hr =>
        cases h
        exact ⟨m, ms', rfl, Mode.digit_of_ofDigit hm, hw, hr⟩

/-- What an accepted instruction word is (R87 to R90). -/
theorem decodeHead_ok {w : Word} {h : Head} (hd : decodeHead w = .ok h) :
    0 ≤ w.toInt ∧ h.op.code = w.toInt.toNat % 100 ∧ decodeModes w.toInt.toNat h.op.params 2 = .ok h.modes ∧
      w.toInt.toNat / 10 ^ (h.op.nparams + 2) = 0 := by
  unfold decodeHead at hd
  split at hd
  · cases hd
  · next hneg =>
    split at hd
    · cases hd
    · next op hop =>
      split at hd
      · cases hd
      · next ms hms =>
        split at hd
        · cases hd
        · next hex =>
          cases hd
          exact ⟨by omega, Opcode.code_of_ofCode hop, hms, by simpa using hex⟩

/-- The instruction a head makes has the head's opcode. -/
@[simp] theorem Head.instr_opcode (h : Head) (lits : List Word) : (h.instr lits).opcode = h.op := by
  cases h with
  | mk op ms => cases op <;> rfl

/-- The instruction a head makes is as long as the opcode tells (R84). -/
@[simp] theorem Head.instr_length (h : Head) (lits : List Word) : (h.instr lits).length = 1 + h.op.nparams := by
  cases h with
  | mk op ms => cases op <;> rfl

/-- What an accepted list of words is: a legal word and at least as many literals as it has parameters (R80, R87). -/
theorem decode_ok {ws rest : List Word} {i : Instr} (hd : decode ws = .ok (i, rest)) :
    ∃ w lits h, ws = w :: lits ∧ decodeHead w = .ok h ∧ h.op.nparams ≤ lits.length ∧ i = h.instr lits ∧
      rest = lits.drop h.op.nparams := by
  cases ws with
  | nil => cases hd
  | cons w lits =>
    simp only [decode] at hd
    cases hh : decodeHead w with
    | error e => rw [hh] at hd; cases hd
    | ok h =>
      rw [hh] at hd
      by_cases hl : lits.length < h.op.nparams
      · simp [hl] at hd
      · simp only [hl, if_false] at hd
        cases hd
        exact ⟨w, lits, h, rfl, hh, by omega, rfl, rfl⟩

end Sys2Proof
end

