-- ==== Sys2Proof/Laws/Memory.lean ====
section
/-! SUPPORT. The laws of the memory list: read after write, the canonical form, what a loaded snapshot reads as (R52 to
R57). -/

namespace Sys2Proof.Machine

/-- A write leaves every other address as it reads (R54); it needs no canonical form. -/
theorem Memory.read_write_other (m : Memory) (a b : Nat) (v : Word) (h : b ≠ a) :
    Memory.read (Memory.write m a v) b = Memory.read m b := by
  induction m with
  | nil =>
    unfold Memory.write
    split <;> simp [Memory.read, h]
  | cons c rest ih =>
    obtain ⟨k, u⟩ := c
    unfold Memory.write
    split
    · split <;> simp [Memory.read, h]
    · split
      · next hk => subst hk; split <;> simp [Memory.read, h]
      · simp [Memory.read, ih]

/-- No cell of a memory whose addresses all lie above `a` is `a`'s, so `a` reads 0. -/
theorem Memory.read_of_all_above (m : Memory) (a : Nat) (h : ∀ c ∈ m, a < c.1) : Memory.read m a = unlistedWord := by
  induction m with
  | nil => rfl
  | cons c rest ih =>
    obtain ⟨k, u⟩ := c
    have hk : a < k := h (k, u) (by simp)
    simp only [Memory.read, if_neg (Nat.ne_of_lt hk)]
    exact ih fun c hc => h c (by simp [hc])

/-- What the canonical form says of a listed cell and the rest. -/
theorem Memory.wf_cons (a : Nat) (v : Word) (rest : Memory) :
    Memory.wf ((a, v) :: rest) = true ↔ v ≠ unlistedWord ∧ (∀ c ∈ rest, a < c.1) ∧ Memory.wf rest = true := by
  simp [Memory.wf, List.all_eq_true, and_assoc]

/-- A read after a write to the same address gives the value written, in canonical memories (R66). -/
theorem Memory.read_write_same (m : Memory) (a : Nat) (v : Word) (hm : m.wf = true) :
    Memory.read (Memory.write m a v) a = v := by
  induction m with
  | nil =>
    unfold Memory.write
    split <;> simp_all [Memory.read]
  | cons c rest ih =>
    obtain ⟨k, u⟩ := c
    obtain ⟨hu, hall, hrest⟩ := (Memory.wf_cons k u rest).1 hm
    unfold Memory.write
    split
    · next hlt =>
      split
      · next hv =>
        rw [hv]
        refine Memory.read_of_all_above _ _ fun c hc => ?_
        rcases List.mem_cons.1 hc with rfl | hc
        · exact hlt
        · exact Nat.lt_trans hlt (hall c hc)
      · simp [Memory.read]
    · split
      · next hk =>
        subst hk
        split
        · next hv => rw [hv]; exact Memory.read_of_all_above _ _ hall
        · simp [Memory.read]
      · next hk => simp [Memory.read, hk, ih hrest]

/-- Every address a write lists was listed before, or is the one written. -/
theorem Memory.mem_write (m : Memory) (a : Nat) (v : Word) (c : Cell) (h : c ∈ Memory.write m a v) :
    c ∈ m ∨ c = (a, v) := by
  induction m with
  | nil =>
    unfold Memory.write at h
    split at h <;> simp_all
  | cons d rest ih =>
    obtain ⟨k, u⟩ := d
    unfold Memory.write at h
    split at h
    · split at h
      · exact .inl h
      · rcases List.mem_cons.1 h with h | h
        · exact .inr h
        · exact .inl h
    · split at h
      · next hk =>
        subst hk
        split at h
        · exact .inl (by simp [h])
        · rcases List.mem_cons.1 h with h | h
          · exact .inr h
          · exact .inl (by simp [h])
      · rcases List.mem_cons.1 h with h | h
        · exact .inl (by simp [h])
        · rcases ih h with h | h
          · exact .inl (by simp [h])
          · exact .inr h

/-- A write keeps the canonical form. -/
theorem Memory.wf_write (m : Memory) (a : Nat) (v : Word) (hm : m.wf = true) : (Memory.write m a v).wf = true := by
  induction m with
  | nil =>
    unfold Memory.write
    split
    · rfl
    · next hv => simp [Memory.wf, hv]
  | cons c rest ih =>
    obtain ⟨k, u⟩ := c
    obtain ⟨hu, hall, hrest⟩ := (Memory.wf_cons k u rest).1 hm
    unfold Memory.write
    split
    · next hlt =>
      split
      · exact hm
      · next hv =>
        refine (Memory.wf_cons _ _ _).2 ⟨hv, fun c hc => ?_, hm⟩
        rcases List.mem_cons.1 hc with rfl | hc
        · exact hlt
        · exact Nat.lt_trans hlt (hall c hc)
    · next hge =>
      split
      · next hk =>
        subst hk
        split
        · exact hrest
        · next hv => exact (Memory.wf_cons _ _ _).2 ⟨hv, hall, hrest⟩
      · next hk =>
        refine (Memory.wf_cons _ _ _).2 ⟨hu, fun c hc => ?_, ih hrest⟩
        rcases Memory.mem_write _ _ _ _ hc with hc | rfl
        · exact hall c hc
        · omega

/-- Every cell of a loaded snapshot lies at its place in the snapshot. -/
theorem Memory.mem_ofWords (ws : List Word) (a : Nat) (c : Cell) (h : c ∈ Memory.ofWords a ws) :
    a ≤ c.1 ∧ c.1 < a + ws.length := by
  induction ws generalizing a with
  | nil => simp [Memory.ofWords] at h
  | cons w ws ih =>
    have step : ∀ h : c ∈ Memory.ofWords (a + 1) ws, a ≤ c.1 ∧ c.1 < a + (w :: ws).length := fun h => by
      have := ih (a + 1) h
      simp only [List.length_cons]
      omega
    unfold Memory.ofWords at h
    split at h
    · exact step h
    · rcases List.mem_cons.1 h with rfl | h
      · simp
      · exact step h

/-- A loaded snapshot is in canonical form. -/
theorem Memory.wf_ofWords (ws : List Word) (a : Nat) : (Memory.ofWords a ws).wf = true := by
  induction ws generalizing a with
  | nil => rfl
  | cons w ws ih =>
    unfold Memory.ofWords
    split
    · exact ih (a + 1)
    · next hw =>
      exact (Memory.wf_cons _ _ _).2 ⟨hw, fun c hc => (Memory.mem_ofWords ws (a + 1) c hc).1, ih (a + 1)⟩

/-- A loaded snapshot reads as itself, and as 0 elsewhere (R35, R57, R270). -/
theorem Memory.read_ofWords (ws : List Word) (a b : Nat) :
    Memory.read (Memory.ofWords a ws) b = if a ≤ b then ws.getD (b - a) unlistedWord else unlistedWord := by
  induction ws generalizing a with
  | nil => simp [Memory.ofWords, Memory.read]
  | cons w ws ih =>
    have rest : b ≠ a → Memory.read (Memory.ofWords (a + 1) ws) b
        = if a ≤ b then (w :: ws).getD (b - a) unlistedWord else unlistedWord := fun hb => by
      rw [ih]
      by_cases h : a ≤ b
      · have e : b - a = (b - (a + 1)) + 1 := by omega
        rw [if_pos h, if_pos (by omega), e, List.getD_cons_succ]
      · rw [if_neg h, if_neg (by omega)]
    unfold Memory.ofWords
    split
    · next hw =>
      by_cases hb : b = a
      · subst hb
        rw [ih]
        simp [hw]
      · exact rest hb
    · by_cases hb : b = a
      · subst hb; simp [Memory.read]
      · simp only [Memory.read, if_neg hb]; exact rest hb

end Sys2Proof.Machine
end

