-- ==== Sys2Proof/Laws/State.lean ====
section
/-! SUPPORT. One lemma per field of State and per update of it, true by rfl: no later proof unfolds a record update. -/

namespace Sys2Proof.Machine

@[simp] theorem State.growTo_cfg (s : State) (a : Nat) : (s.growTo a).cfg = s.cfg := rfl
@[simp] theorem State.growTo_loaded (s : State) (a : Nat) : (s.growTo a).loaded = s.loaded := rfl
@[simp] theorem State.growTo_mem (s : State) (a : Nat) : (s.growTo a).mem = s.mem := rfl
@[simp] theorem State.growTo_memLen (s : State) (a : Nat) : (s.growTo a).memLen = max s.memLen (a + 1) := rfl
@[simp] theorem State.growTo_pc (s : State) (a : Nat) : (s.growTo a).pc = s.pc := rfl
@[simp] theorem State.growTo_rb (s : State) (a : Nat) : (s.growTo a).rb = s.rb := rfl
@[simp] theorem State.growTo_state (s : State) (a : Nat) : (s.growTo a).state = s.state := rfl
@[simp] theorem State.growTo_inQ (s : State) (a : Nat) : (s.growTo a).inQ = s.inQ := rfl
@[simp] theorem State.growTo_outQ (s : State) (a : Nat) : (s.growTo a).outQ = s.outQ := rfl
@[simp] theorem State.growTo_fault (s : State) (a : Nat) : (s.growTo a).fault = s.fault := rfl

@[simp] theorem State.storeWord_cfg (s : State) (a : Nat) (v : Word) : (s.storeWord a v).cfg = s.cfg := rfl
@[simp] theorem State.storeWord_loaded (s : State) (a : Nat) (v : Word) : (s.storeWord a v).loaded = s.loaded := rfl
@[simp] theorem State.storeWord_mem (s : State) (a : Nat) (v : Word) : (s.storeWord a v).mem = s.mem.write a v := rfl
@[simp] theorem State.storeWord_memLen (s : State) (a : Nat) (v : Word) : (s.storeWord a v).memLen = max s.memLen (a + 1) := rfl
@[simp] theorem State.storeWord_pc (s : State) (a : Nat) (v : Word) : (s.storeWord a v).pc = s.pc := rfl
@[simp] theorem State.storeWord_rb (s : State) (a : Nat) (v : Word) : (s.storeWord a v).rb = s.rb := rfl
@[simp] theorem State.storeWord_state (s : State) (a : Nat) (v : Word) : (s.storeWord a v).state = s.state := rfl
@[simp] theorem State.storeWord_inQ (s : State) (a : Nat) (v : Word) : (s.storeWord a v).inQ = s.inQ := rfl
@[simp] theorem State.storeWord_outQ (s : State) (a : Nat) (v : Word) : (s.storeWord a v).outQ = s.outQ := rfl
@[simp] theorem State.storeWord_fault (s : State) (a : Nat) (v : Word) : (s.storeWord a v).fault = s.fault := rfl

@[simp] theorem State.latch_cfg (s : State) (k : FaultKind) (addr : Int) (w : Word) : (s.latch k addr w).cfg = s.cfg := rfl
@[simp] theorem State.latch_loaded (s : State) (k : FaultKind) (addr : Int) (w : Word) : (s.latch k addr w).loaded = s.loaded := rfl
@[simp] theorem State.latch_mem (s : State) (k : FaultKind) (addr : Int) (w : Word) : (s.latch k addr w).mem = s.mem := rfl
@[simp] theorem State.latch_memLen (s : State) (k : FaultKind) (addr : Int) (w : Word) : (s.latch k addr w).memLen = s.memLen := rfl
@[simp] theorem State.latch_pc (s : State) (k : FaultKind) (addr : Int) (w : Word) : (s.latch k addr w).pc = s.pc := rfl
@[simp] theorem State.latch_rb (s : State) (k : FaultKind) (addr : Int) (w : Word) : (s.latch k addr w).rb = s.rb := rfl
@[simp] theorem State.latch_state (s : State) (k : FaultKind) (addr : Int) (w : Word) : (s.latch k addr w).state = s.state := rfl
@[simp] theorem State.latch_inQ (s : State) (k : FaultKind) (addr : Int) (w : Word) : (s.latch k addr w).inQ = s.inQ := rfl
@[simp] theorem State.latch_outQ (s : State) (k : FaultKind) (addr : Int) (w : Word) : (s.latch k addr w).outQ = s.outQ := rfl
@[simp] theorem State.latch_fault (s : State) (k : FaultKind) (addr : Int) (w : Word) : (s.latch k addr w).fault = ⟨k, latchAddr addr, w⟩ := rfl

@[simp] theorem State.advance_cfg (s : State) (n : Nat) : (s.advance n).cfg = s.cfg := rfl
@[simp] theorem State.advance_loaded (s : State) (n : Nat) : (s.advance n).loaded = s.loaded := rfl
@[simp] theorem State.advance_mem (s : State) (n : Nat) : (s.advance n).mem = s.mem := rfl
@[simp] theorem State.advance_memLen (s : State) (n : Nat) : (s.advance n).memLen = s.memLen := rfl
@[simp] theorem State.advance_pc (s : State) (n : Nat) : (s.advance n).pc = s.pcAfter n := rfl
@[simp] theorem State.advance_rb (s : State) (n : Nat) : (s.advance n).rb = s.rb := rfl
@[simp] theorem State.advance_state (s : State) (n : Nat) : (s.advance n).state = .running := rfl
@[simp] theorem State.advance_inQ (s : State) (n : Nat) : (s.advance n).inQ = s.inQ := rfl
@[simp] theorem State.advance_outQ (s : State) (n : Nat) : (s.advance n).outQ = s.outQ := rfl
@[simp] theorem State.advance_fault (s : State) (n : Nat) : (s.advance n).fault = s.fault := rfl

@[simp] theorem State.jumpTo_cfg (s : State) (npc : Word) : (s.jumpTo npc).cfg = s.cfg := rfl
@[simp] theorem State.jumpTo_loaded (s : State) (npc : Word) : (s.jumpTo npc).loaded = s.loaded := rfl
@[simp] theorem State.jumpTo_mem (s : State) (npc : Word) : (s.jumpTo npc).mem = s.mem := rfl
@[simp] theorem State.jumpTo_memLen (s : State) (npc : Word) : (s.jumpTo npc).memLen = s.memLen := rfl
@[simp] theorem State.jumpTo_pc (s : State) (npc : Word) : (s.jumpTo npc).pc = npc := rfl
@[simp] theorem State.jumpTo_rb (s : State) (npc : Word) : (s.jumpTo npc).rb = s.rb := rfl
@[simp] theorem State.jumpTo_state (s : State) (npc : Word) : (s.jumpTo npc).state = .running := rfl
@[simp] theorem State.jumpTo_inQ (s : State) (npc : Word) : (s.jumpTo npc).inQ = s.inQ := rfl
@[simp] theorem State.jumpTo_outQ (s : State) (npc : Word) : (s.jumpTo npc).outQ = s.outQ := rfl
@[simp] theorem State.jumpTo_fault (s : State) (npc : Word) : (s.jumpTo npc).fault = s.fault := rfl

@[simp] theorem State.inPop_cfg (s : State) : (s.inPop).cfg = s.cfg := rfl
@[simp] theorem State.inPop_loaded (s : State) : (s.inPop).loaded = s.loaded := rfl
@[simp] theorem State.inPop_mem (s : State) : (s.inPop).mem = s.mem := rfl
@[simp] theorem State.inPop_memLen (s : State) : (s.inPop).memLen = s.memLen := rfl
@[simp] theorem State.inPop_pc (s : State) : (s.inPop).pc = s.pc := rfl
@[simp] theorem State.inPop_rb (s : State) : (s.inPop).rb = s.rb := rfl
@[simp] theorem State.inPop_state (s : State) : (s.inPop).state = s.state := rfl
@[simp] theorem State.inPop_inQ (s : State) : (s.inPop).inQ = s.inQ.tail := rfl
@[simp] theorem State.inPop_outQ (s : State) : (s.inPop).outQ = s.outQ := rfl
@[simp] theorem State.inPop_fault (s : State) : (s.inPop).fault = s.fault := rfl

@[simp] theorem State.inPush_cfg (s : State) (vs : List Word) : (s.inPush vs).cfg = s.cfg := rfl
@[simp] theorem State.inPush_loaded (s : State) (vs : List Word) : (s.inPush vs).loaded = s.loaded := rfl
@[simp] theorem State.inPush_mem (s : State) (vs : List Word) : (s.inPush vs).mem = s.mem := rfl
@[simp] theorem State.inPush_memLen (s : State) (vs : List Word) : (s.inPush vs).memLen = s.memLen := rfl
@[simp] theorem State.inPush_pc (s : State) (vs : List Word) : (s.inPush vs).pc = s.pc := rfl
@[simp] theorem State.inPush_rb (s : State) (vs : List Word) : (s.inPush vs).rb = s.rb := rfl
@[simp] theorem State.inPush_state (s : State) (vs : List Word) : (s.inPush vs).state = s.state := rfl
@[simp] theorem State.inPush_inQ (s : State) (vs : List Word) : (s.inPush vs).inQ = s.inQ ++ vs := rfl
@[simp] theorem State.inPush_outQ (s : State) (vs : List Word) : (s.inPush vs).outQ = s.outQ := rfl
@[simp] theorem State.inPush_fault (s : State) (vs : List Word) : (s.inPush vs).fault = s.fault := rfl

@[simp] theorem State.outPush_cfg (s : State) (v : Word) : (s.outPush v).cfg = s.cfg := rfl
@[simp] theorem State.outPush_loaded (s : State) (v : Word) : (s.outPush v).loaded = s.loaded := rfl
@[simp] theorem State.outPush_mem (s : State) (v : Word) : (s.outPush v).mem = s.mem := rfl
@[simp] theorem State.outPush_memLen (s : State) (v : Word) : (s.outPush v).memLen = s.memLen := rfl
@[simp] theorem State.outPush_pc (s : State) (v : Word) : (s.outPush v).pc = s.pc := rfl
@[simp] theorem State.outPush_rb (s : State) (v : Word) : (s.outPush v).rb = s.rb := rfl
@[simp] theorem State.outPush_state (s : State) (v : Word) : (s.outPush v).state = s.state := rfl
@[simp] theorem State.outPush_inQ (s : State) (v : Word) : (s.outPush v).inQ = s.inQ := rfl
@[simp] theorem State.outPush_outQ (s : State) (v : Word) : (s.outPush v).outQ = s.outQ ++ [v] := rfl
@[simp] theorem State.outPush_fault (s : State) (v : Word) : (s.outPush v).fault = s.fault := rfl

@[simp] theorem State.outPopFront_cfg (s : State) : (s.outPopFront).cfg = s.cfg := rfl
@[simp] theorem State.outPopFront_loaded (s : State) : (s.outPopFront).loaded = s.loaded := rfl
@[simp] theorem State.outPopFront_mem (s : State) : (s.outPopFront).mem = s.mem := rfl
@[simp] theorem State.outPopFront_memLen (s : State) : (s.outPopFront).memLen = s.memLen := rfl
@[simp] theorem State.outPopFront_pc (s : State) : (s.outPopFront).pc = s.pc := rfl
@[simp] theorem State.outPopFront_rb (s : State) : (s.outPopFront).rb = s.rb := rfl
@[simp] theorem State.outPopFront_state (s : State) : (s.outPopFront).state = s.state := rfl
@[simp] theorem State.outPopFront_inQ (s : State) : (s.outPopFront).inQ = s.inQ := rfl
@[simp] theorem State.outPopFront_outQ (s : State) : (s.outPopFront).outQ = s.outQ.tail := rfl
@[simp] theorem State.outPopFront_fault (s : State) : (s.outPopFront).fault = s.fault := rfl

@[simp] theorem State.outDrainAll_cfg (s : State) : (s.outDrainAll).cfg = s.cfg := rfl
@[simp] theorem State.outDrainAll_loaded (s : State) : (s.outDrainAll).loaded = s.loaded := rfl
@[simp] theorem State.outDrainAll_mem (s : State) : (s.outDrainAll).mem = s.mem := rfl
@[simp] theorem State.outDrainAll_memLen (s : State) : (s.outDrainAll).memLen = s.memLen := rfl
@[simp] theorem State.outDrainAll_pc (s : State) : (s.outDrainAll).pc = s.pc := rfl
@[simp] theorem State.outDrainAll_rb (s : State) : (s.outDrainAll).rb = s.rb := rfl
@[simp] theorem State.outDrainAll_state (s : State) : (s.outDrainAll).state = s.state := rfl
@[simp] theorem State.outDrainAll_inQ (s : State) : (s.outDrainAll).inQ = s.inQ := rfl
@[simp] theorem State.outDrainAll_outQ (s : State) : (s.outDrainAll).outQ = [] := rfl
@[simp] theorem State.outDrainAll_fault (s : State) : (s.outDrainAll).fault = s.fault := rfl

/-- The sequential pc depends on the state through `pc` alone. -/
theorem State.pcAfter_eq_of_pc {s t : State} (n : Nat) (h : t.pc = s.pc) : t.pcAfter n = s.pcAfter n := by
  simp only [State.pcAfter, h]

end Sys2Proof.Machine
end

