-- ==== Sys2Proof/Laws/Ops.lean ====
section
/-! SUPPORT. What the shared operations can do, each said once: accesses (R51 to R53), operands (R93, R94), the
overflow check (R123), raising (R240). A state that has only grown is written `{ s with memLen := L }`. -/

namespace Sys2Proof.Machine

/-! Accesses. -/

theorem addressOk_iff (s : State) (a : Int) : addressOk s a = true ↔ 0 ≤ a ∧ a < s.cfg.memCap := by
  simp [addressOk]

theorem checkAddr_ok {s : State} {a : Int} (h : addressOk s a = true) : checkAddr s a = .ok a.toNat s := by
  simp [checkAddr, h]

theorem checkAddr_error {s : State} {a : Int} (h : addressOk s a = false) :
    checkAddr s a = .error (addressError a) a s := by
  simp [checkAddr, h]

/-- A read at a legal address gives the word there and grows memory to it (R52). -/
theorem memRead_ok {s : State} {a : Int} (h : addressOk s a = true) :
    memRead s a = .ok (s.mem.read a.toNat) (s.growTo a.toNat) := by
  simp [memRead, checkAddr_ok h]

/-- A read at an illegal address is that address's error and grows nothing (R51, R240). -/
theorem memRead_error {s : State} {a : Int} (h : addressOk s a = false) :
    memRead s a = .error (addressError a) a s := by
  simp [memRead, checkAddr_error h]

/-- The key of a legal address is below MEM_CAP. -/
theorem toNat_lt_of_addressOk {s : State} {a : Int} (h : addressOk s a = true) : a.toNat < s.cfg.memCap := by
  have := (addressOk_iff s a).1 h
  omega

/-- `CheckAddr` never raises the empty kind. -/
theorem addressError_ne_none (a : Int) : addressError a ≠ .none := by
  unfold addressError
  split <;> simp

/-- `s.growTo a` is `s` with a longer memory. -/
theorem State.growTo_eq (s : State) (a : Nat) : s.growTo a = { s with memLen := max s.memLen (a + 1) } := rfl

/-! Nothing an operand resolves to depends on how far memory has grown (R57). -/

@[simp] theorem addressOk_grown (s : State) (a : Int) (L : Nat) : addressOk { s with memLen := L } a = addressOk s a := rfl
@[simp] theorem operandAddress_grown (p : Param) (s : State) (L : Nat) :
    operandAddress p { s with memLen := L } = operandAddress p s := rfl
@[simp] theorem readable_grown (p : Param) (s : State) (L : Nat) : readable p { s with memLen := L } = readable p s := rfl
@[simp] theorem writable_grown (p : Param) (s : State) (L : Nat) : writable p { s with memLen := L } = writable p s := rfl
@[simp] theorem operandValue_grown (p : Param) (s : State) (L : Nat) :
    operandValue p { s with memLen := L } = operandValue p s := rfl
@[simp] theorem destination_grown (p : Param) (s : State) (L : Nat) :
    destination p { s with memLen := L } = destination p s := rfl
@[simp] theorem lenAfter_grown (p : Param) (s : State) (L len : Nat) :
    lenAfter p { s with memLen := L } len = lenAfter p s len := rfl
@[simp] theorem outFull_grown (s : State) (L : Nat) : outFull { s with memLen := L } = outFull s := rfl

/-! Operands. -/

/-- A readable parameter resolves to its value; memory grows to its address (R93). -/
theorem readOperand_ok {p : Param} {s : State} (h : readable p s = true) :
    readOperand p s = .ok (operandValue p s) { s with memLen := lenAfter p s s.memLen } := by
  unfold readable at h
  unfold readOperand operandValue lenAfter
  cases hm : p.mode <;> simp [hm] at h ⊢ <;> simp [memRead_ok h, State.growTo]

/-- A parameter that is not readable is its address's error (R51, R93). -/
theorem readOperand_error {p : Param} {s : State} (h : readable p s = false) :
    readOperand p s = .error (readError p s) (operandAddress p s) s := by
  unfold readable at h
  unfold readOperand readError
  cases hm : p.mode <;> simp [hm] at h ⊢ <;> simp [memRead_error h]

/-- A writable parameter resolves to its destination, and nothing grows yet (R94). -/
theorem writeAddress_ok {p : Param} {s : State} (h : writable p s = true) : writeAddress p s = .ok (destination p s) s := by
  unfold writable at h
  unfold writeAddress destination
  cases hm : p.mode <;> simp [hm] at h ⊢ <;> simp [checkAddr_ok h]

@[simp] theorem writeError_grown (p : Param) (s : State) (L : Nat) :
    writeError p { s with memLen := L } = writeError p s := rfl
@[simp] theorem writeErrorAddr_grown (p : Param) (s : State) (L : Nat) :
    writeErrorAddr p { s with memLen := L } = writeErrorAddr p s := rfl

theorem writeAddress_error {p : Param} {s : State} (h : writable p s = false) :
    writeAddress p s = .error (writeError p s) (writeErrorAddr p s) s := by
  unfold writable at h
  unfold writeAddress writeError writeErrorAddr
  cases hm : p.mode <;> simp [hm] at h ⊢ <;> simp [checkAddr_error h]

@[simp] theorem readError_grown (p : Param) (s : State) (L : Nat) : readError p { s with memLen := L } = readError p s :=
  rfl

theorem readError_ne_none (p : Param) (s : State) : readError p s ≠ .none := addressError_ne_none _

theorem writeError_ne_none (p : Param) (s : State) : writeError p s ≠ .none := by
  unfold writeError
  split
  · simp
  · exact addressError_ne_none _

/-- A destination lies below MEM_CAP. -/
theorem destination_lt {p : Param} {s : State} (h : writable p s = true) : destination p s < s.cfg.memCap := by
  simp only [writable, Bool.and_eq_true] at h
  exact toNat_lt_of_addressOk h.2

/-- Resolving a parameter never shortens memory (R54). -/
theorem le_lenAfter (p : Param) (s : State) (len : Nat) : len ≤ lenAfter p s len := by
  unfold lenAfter
  split <;> omega

/-- Resolving a readable parameter never grows memory beyond MEM_CAP (R30). -/
theorem lenAfter_le {p : Param} {s : State} {len : Nat} (h : readable p s = true) :
    lenAfter p s len ≤ max len s.cfg.memCap := by
  unfold readable at h
  unfold lenAfter
  cases hm : p.mode <;> simp [hm] at h ⊢ <;> have := toNat_lt_of_addressOk h <;> omega

/-! Going on or raising. -/

@[simp] theorem Access.orRaise_ok {α : Type} (v : α) (s : State) (w : Word) (k : α → State → Result) :
    (Access.ok v s).orRaise w k = k v s := rfl

@[simp] theorem Access.orRaise_error {α : Type} (e : FaultKind) (a : Int) (s : State) (w : Word)
    (k : α → State → Result) : (Access.error e a s : Access α).orRaise w k = raise e a w s := rfl

theorem inRangeOrRaise_ok {v : Int} (w : Word) (s : State) (k : Word → State → Result) (h : inRange64 v = true) :
    inRangeOrRaise v w s k = k (Word.ofInt v) s := by
  simp [inRangeOrRaise, h]

theorem inRangeOrRaise_error {v : Int} (w : Word) (s : State) (k : Word → State → Result) (h : inRange64 v = false) :
    inRangeOrRaise v w s k = raise .arithmeticOverflow s.pc.toInt w s := by
  simp [inRangeOrRaise, h]

theorem inRange64_iff (v : Int) : inRange64 v = true ↔ -2 ^ 63 ≤ v ∧ v ≤ 2 ^ 63 - 1 := by
  simp [inRange64]

/-- A representable integer is the value of its word (R14). -/
theorem toInt_ofInt {v : Int} (h : inRange64 v = true) : (Word.ofInt v).toInt = v := by
  have := (inRange64_iff v).1 h
  simp only [Word.ofInt, BitVec.toInt_ofInt]
  exact Int.bmod_eq_of_le (by norm_num; omega) (by norm_num; omega)

/-- The value of a word is representable (R10). -/
theorem inRange64_toInt (w : Word) : inRange64 w.toInt = true := by
  have h1 := BitVec.le_toInt w
  have h2 := BitVec.toInt_lt (x := w)
  rw [inRange64_iff]
  norm_num at *
  omega

/-- An error about a representable address records it (R27, R232, R233). -/
theorem latchAddr_toInt {a : Int} (h : inRange64 a = true) : (latchAddr a).toInt = a := by
  simp [latchAddr, h, toInt_ofInt h]

/-- An error about the pc records the pc (R231, R234). -/
@[simp] theorem latchAddr_word (w : Word) : latchAddr w.toInt = w := by
  simp [latchAddr, inRange64_toInt, Word.ofInt]

end Sys2Proof.Machine
end

