-- ==== Sys2Proof/Laws/Shapes.lean ====
section
/-! SUPPORT. The shapes the meanings share, each as one equation over all its ends, in the order of R97. -/

namespace Sys2Proof.Machine

/-- A write at a destination leaves memory as long as resolving the parameter as an access would. -/
theorem lenAfter_of_writable {p : Param} {s : State} (len : Nat) (h : writable p s = true) :
    lenAfter p s len = max len (destination p s + 1) := by
  unfold writable at h
  unfold lenAfter destination
  cases hm : p.mode <;> simp [hm] at h ⊢

/-- Every end of the shape of ADD and MUL. -/
theorem storeExact_eq (f : Int → Int → Int) (w : Word) (a b dst : Param) (s : State) :
    storeExact f w a b dst s =
      if readable a s = false then raise (readError a s) (operandAddress a s) w s
      else if readable b s = false then
        raise (readError b s) (operandAddress b s) w { s with memLen := lenAfter a s s.memLen }
      else if writable dst s = false then
        raise (writeError dst s) (writeErrorAddr dst s) w { s with memLen := lenAfter b s (lenAfter a s s.memLen) }
      else if inRange64 (f (operandValue a s).toInt (operandValue b s).toInt) = false then
        raise .arithmeticOverflow s.pc.toInt w { s with memLen := lenAfter b s (lenAfter a s s.memLen) }
      else .next
        { s with
          mem := s.mem.write (destination dst s) (Word.ofInt (f (operandValue a s).toInt (operandValue b s).toInt))
          memLen := lenAfter dst s (lenAfter b s (lenAfter a s s.memLen))
          pc := s.pcAfter 4
          state := .running } := by
  unfold storeExact
  cases ha : readable a s
  · simp [readOperand_error ha]
  cases hb : readable b s
  · simp [readOperand_ok ha, readOperand_error (s := { s with memLen := lenAfter a s s.memLen }) hb]
  cases hd : writable dst s
  · simp [readOperand_ok ha, readOperand_ok (s := { s with memLen := lenAfter a s s.memLen }) hb,
      writeAddress_error (s := { s with memLen := lenAfter b s (lenAfter a s s.memLen) }) hd]
  cases hr : inRange64 (f (operandValue a s).toInt (operandValue b s).toInt)
  · simp [readOperand_ok ha, readOperand_ok (s := { s with memLen := lenAfter a s s.memLen }) hb,
      writeAddress_ok (s := { s with memLen := lenAfter b s (lenAfter a s s.memLen) }) hd,
      inRangeOrRaise_error _ _ _ hr]
  · simp [readOperand_ok ha, readOperand_ok (s := { s with memLen := lenAfter a s s.memLen }) hb,
      writeAddress_ok (s := { s with memLen := lenAfter b s (lenAfter a s s.memLen) }) hd,
      inRangeOrRaise_ok _ _ _ hr, lenAfter_of_writable _ hd, commitStore, State.storeWord, State.advance, State.pcAfter]

/-- Every end of the shape of LT and EQ. -/
theorem storeCondition_eq (c : Word → Word → Bool) (w : Word) (a b dst : Param) (s : State) :
    storeCondition c w a b dst s =
      if readable a s = false then raise (readError a s) (operandAddress a s) w s
      else if readable b s = false then
        raise (readError b s) (operandAddress b s) w { s with memLen := lenAfter a s s.memLen }
      else if writable dst s = false then
        raise (writeError dst s) (writeErrorAddr dst s) w { s with memLen := lenAfter b s (lenAfter a s s.memLen) }
      else .next
        { s with
          mem := s.mem.write (destination dst s) (boolWord (c (operandValue a s) (operandValue b s)))
          memLen := lenAfter dst s (lenAfter b s (lenAfter a s s.memLen))
          pc := s.pcAfter 4
          state := .running } := by
  unfold storeCondition
  cases ha : readable a s
  · simp [readOperand_error ha]
  cases hb : readable b s
  · simp [readOperand_ok ha, readOperand_error (s := { s with memLen := lenAfter a s s.memLen }) hb]
  cases hd : writable dst s
  · simp [readOperand_ok ha, readOperand_ok (s := { s with memLen := lenAfter a s s.memLen }) hb,
      writeAddress_error (s := { s with memLen := lenAfter b s (lenAfter a s s.memLen) }) hd]
  · simp [readOperand_ok ha, readOperand_ok (s := { s with memLen := lenAfter a s s.memLen }) hb,
      writeAddress_ok (s := { s with memLen := lenAfter b s (lenAfter a s s.memLen) }) hd,
      lenAfter_of_writable _ hd, commitStore, State.storeWord, State.advance, State.pcAfter]

/-- Every end of the shape of JT and JF. -/
theorem jumpIf_eq (c : Word → Bool) (w : Word) (a target : Param) (s : State) :
    jumpIf c w a target s =
      if readable a s = false then raise (readError a s) (operandAddress a s) w s
      else if readable target s = false then
        raise (readError target s) (operandAddress target s) w { s with memLen := lenAfter a s s.memLen }
      else .next
        { s with
          memLen := lenAfter target s (lenAfter a s s.memLen)
          pc := if c (operandValue a s) then operandValue target s else s.pcAfter 3
          state := .running } := by
  unfold jumpIf
  cases ha : readable a s
  · simp [readOperand_error ha]
  cases hb : readable target s
  · simp [readOperand_ok ha, readOperand_error (s := { s with memLen := lenAfter a s s.memLen }) hb]
  · simp [readOperand_ok ha, readOperand_ok (s := { s with memLen := lenAfter a s s.memLen }) hb, State.jumpTo,
      State.pcAfter]

end Sys2Proof.Machine
end

