-- ==== Sys2Proof/Laws/Step.lean ====
section
/-! SUPPORT. What a step can do, said once: how the front end ends, how a meaning ends, how a step ends. Invariants and
frames are read off these three, not off the definitions. -/

namespace Sys2Proof.Machine

/-! The front end. -/

/-- One more word in front. -/
theorem wordsAt_succ (s : State) (a n : Nat) : wordsAt s a (n + 1) = s.mem.read a :: wordsAt s (a + 1) n := by
  simp only [wordsAt, List.range_succ_eq_map, List.map_cons, List.map_map, Nat.add_zero]
  congr 1
  apply List.map_congr_left
  intro k _
  show s.mem.read (a + (k + 1)) = s.mem.read (a + 1 + k)
  congr 1
  omega

@[simp] theorem wordsAt_grown (s : State) (L a n : Nat) : wordsAt { s with memLen := L } a n = wordsAt s a n := rfl

@[simp] theorem length_wordsAt (s : State) (a n : Nat) : (wordsAt s a n).length = n := by simp [wordsAt]

/-- The literal fetches below MEM_CAP give the words there and grow memory over them (R91). -/
theorem fetchLiterals_ok (n : Nat) (a : Int) (s : State) (h0 : 0 ≤ a) (hn : a + n ≤ s.cfg.memCap)
    (hl : a.toNat ≤ s.memLen) :
    fetchLiterals n a s = .ok (wordsAt s a.toNat n) { s with memLen := max s.memLen (a.toNat + n) } := by
  induction n generalizing a s with
  | zero =>
    have : max s.memLen a.toNat = s.memLen := by omega
    simp [fetchLiterals, wordsAt, this]
  | succ n ih =>
    have hok : addressOk s a = true := by rw [addressOk_iff]; omega
    have e : (a + 1).toNat = a.toNat + 1 := by omega
    have hrec := ih (a + 1) (s.growTo a.toNat) (by omega) (by simp; omega) (by simp)
    simp only [fetchLiterals, memRead_ok hok, hrec, e]
    rw [wordsAt_succ]
    have : max (max s.memLen (a.toNat + 1)) (a.toNat + 1 + n) = max s.memLen (a.toNat + (n + 1)) := by omega
    simp [State.growTo, this]

/-- The literal fetches only grow memory, and end in the words or in `CapacityExceeded`'s or `InvalidAddress`'s kind. -/
theorem fetchLiterals_cases (n : Nat) (a : Int) (s : State) :
    (∃ vs L, s.memLen ≤ L ∧ L ≤ max s.memLen s.cfg.memCap ∧ fetchLiterals n a s = .ok vs { s with memLen := L }) ∨
    (∃ k b L, k ≠ .none ∧ s.memLen ≤ L ∧ L ≤ max s.memLen s.cfg.memCap ∧
      fetchLiterals n a s = .error k b { s with memLen := L }) := by
  induction n generalizing a s with
  | zero => exact .inl ⟨[], s.memLen, by omega, by omega, rfl⟩
  | succ n ih =>
    cases hok : addressOk s a
    · exact .inr ⟨_, _, s.memLen, addressError_ne_none a, by omega, by omega, by
        simp only [fetchLiterals, memRead_error hok]; rfl⟩
    · have hb := toNat_lt_of_addressOk hok
      rcases ih (a + 1) (s.growTo a.toNat) with ⟨vs, L, h1, h2, h⟩ | ⟨k, b, L, hk, h1, h2, h⟩
      · refine .inl ⟨s.mem.read a.toNat :: vs, L, ?_, ?_, ?_⟩
        · simp at h1; omega
        · simp at h2; omega
        · simp only [fetchLiterals, memRead_ok hok, h]; rfl
      · refine .inr ⟨k, b, L, hk, ?_, ?_, ?_⟩
        · simp at h1; omega
        · simp at h2; omega
        · simp only [fetchLiterals, memRead_ok hok, h]; rfl

/-- How the front end ends: an instruction with nothing changed but a longer memory, or the latch written besides
(R87, R91, R240). -/
theorem fetchInstr_cases (s : State) :
    (∃ i L, s.memLen ≤ L ∧ L ≤ max s.memLen s.cfg.memCap ∧ fetchInstr s = .fetched i { s with memLen := L }) ∨
    (∃ k a w L, k ≠ .none ∧ s.memLen ≤ L ∧ L ≤ max s.memLen s.cfg.memCap ∧
      fetchInstr s = .fatal (({ s with memLen := L } : State).latch k a w)) := by
  unfold fetchInstr
  cases hok : addressOk s s.pc.toInt
  · exact .inr ⟨_, _, 0, s.memLen, addressError_ne_none _, by omega, by omega, by simp only [memRead_error hok]; rfl⟩
  · have hb := toNat_lt_of_addressOk hok
    simp only [memRead_ok hok]
    cases decodeHead (s.mem.read s.pc.toInt.toNat) with
    | error e =>
      exact .inr ⟨.invalidOpcode, s.pc.toInt, _, max s.memLen (s.pc.toInt.toNat + 1), by simp, by omega, by omega, rfl⟩
    | ok h =>
      rcases fetchLiterals_cases h.op.nparams (s.pc.toInt + 1) (s.growTo s.pc.toInt.toNat) with
        ⟨vs, L, h1, h2, he⟩ | ⟨k, b, L, hk, h1, h2, he⟩
      · refine .inl ⟨h.instr vs, L, ?_, ?_, ?_⟩
        · simp at h1; omega
        · simp at h2; omega
        · simp only [State.growTo_pc, he]; rfl
      · refine .inr ⟨k, b, s.mem.read s.pc.toInt.toNat, L, hk, ?_, ?_, ?_⟩
        · simp at h1; omega
        · simp at h2; omega
        · simp only [State.growTo_pc, he]; rfl

/-- The front end on a legal word whose literals lie below MEM_CAP (R87, R91). -/
theorem fetchInstr_fetched {s : State} {h : Head} (hpc : 0 ≤ s.pc.toInt)
    (hcap : s.pc.toInt + h.op.nparams < s.cfg.memCap)
    (hd : decodeHead (s.mem.read s.pc.toInt.toNat) = .ok h) :
    fetchInstr s = .fetched (h.instr (wordsAt s (s.pc.toInt.toNat + 1) h.op.nparams))
      { s with memLen := max s.memLen (s.pc.toInt.toNat + (1 + h.op.nparams)) } := by
  have hok : addressOk s s.pc.toInt = true := by rw [addressOk_iff]; omega
  have e : (s.pc.toInt + 1).toNat = s.pc.toInt.toNat + 1 := by omega
  have hl := fetchLiterals_ok h.op.nparams (s.pc.toInt + 1) (s.growTo s.pc.toInt.toNat) (by omega) (by simp; omega)
    (by simp)
  have em : max (max s.memLen (s.pc.toInt.toNat + 1)) (s.pc.toInt.toNat + 1 + h.op.nparams)
      = max s.memLen (s.pc.toInt.toNat + (1 + h.op.nparams)) := by omega
  rw [State.growTo_memLen, e, em] at hl
  simp only [fetchInstr, memRead_ok hok, hd, State.growTo_pc, hl]
  rfl

/-- What an instruction the front end hands on comes from: a legal pc, an accepted word there, and nothing changed but
memory's length (R87, R91). -/
theorem fetchInstr_fetched_cases {s t : State} {i : Instr} (h : fetchInstr s = .fetched i t) :
    addressOk s s.pc.toInt = true ∧ ∃ hd lits L, decodeHead (s.mem.read s.pc.toInt.toNat) = .ok hd ∧
      i = hd.instr lits ∧ t = { s with memLen := L } ∧
      fetchLiterals hd.op.nparams (s.pc.toInt + 1) (s.growTo s.pc.toInt.toNat) = .ok lits t := by
  unfold fetchInstr at h
  cases hok : addressOk s s.pc.toInt
  · rw [memRead_error hok] at h; cases h
  · simp only [memRead_ok hok] at h
    cases hd : decodeHead (s.mem.read s.pc.toInt.toNat) with
    | error e => simp [hd] at h
    | ok hh =>
      simp only [hd, State.growTo_pc] at h
      rcases fetchLiterals_cases hh.op.nparams (s.pc.toInt + 1) (s.growTo s.pc.toInt.toNat) with
        ⟨vs, L, _, _, he⟩ | ⟨k, b, L, _, _, _, he⟩
      · simp only [he, FrontEnd.fetched.injEq] at h
        obtain ⟨rfl, rfl⟩ := h
        exact ⟨rfl, hh, vs, L, rfl, rfl, rfl, he⟩
      · simp [he] at h

/-! How an instruction ends. -/

/-- A fatal error: only the latch and the memory's length differ (R240). -/
structure Raised (s t : State) : Prop where
  eq : ∃ k a w L, k ≠ FaultKind.none ∧ s.memLen ≤ L ∧ L ≤ max s.memLen s.cfg.memCap ∧
    t = ({ s with memLen := L } : State).latch k a w

/-- A block: on an empty input queue only `state` differs, on a full output queue nothing (R130, R131, R240). -/
inductive Blocked (s : State) : State → Prop where
  | noInput (h : s.inQ = []) : Blocked s { s with state := .waitingForInput }
  | outputFull (h : outFull s = true) : Blocked s s

/-- A commit: what it may change, whatever the instruction. -/
structure Committed (s t : State) : Prop where
  cfg : t.cfg = s.cfg
  loaded : t.loaded = s.loaded
  fault : t.fault = s.fault
  len_le : s.memLen ≤ t.memLen
  len_cap : t.memLen ≤ max s.memLen s.cfg.memCap
  mem : t.mem = s.mem ∨ ∃ d v, d < t.memLen ∧ t.mem = s.mem.write d v
  inQ : t.inQ = s.inQ ∨ ∃ v, s.inQ = v :: t.inQ
  outQ : t.outQ = s.outQ ∨ outFull s = false ∧ ∃ v, t.outQ = s.outQ ++ [v]
  state : t.state = .running ∨ t.state = .stopped

/-- How a meaning that does not block ends. -/
def RunEnd (s t : State) : Prop := Raised s t ∨ Committed s t

/-- How a meaning ends. -/
def ExecEnd (s t : State) : Prop := Raised s t ∨ Blocked s t ∨ Committed s t

theorem RunEnd.execEnd {s t : State} (h : RunEnd s t) : ExecEnd s t := h.imp id .inr

/-- Raising after some growth is a fatal end. -/
theorem raise_ends {s : State} {k : FaultKind} (a : Int) (w : Word) {L : Nat} (hk : k ≠ .none) (h1 : s.memLen ≤ L)
    (h2 : L ≤ max s.memLen s.cfg.memCap) :
    ∃ t, raise k a w { s with memLen := L } = .next t ∧ RunEnd s t :=
  ⟨_, rfl, .inl ⟨k, a, w, L, hk, h1, h2, rfl⟩⟩

theorem storeExact_ends (f : Int → Int → Int) (w : Word) (a b dst : Param) (s : State) :
    ∃ t, storeExact f w a b dst s = .next t ∧ RunEnd s t := by
  rw [storeExact_eq]
  have la := le_lenAfter a s s.memLen
  have lb := le_lenAfter b s (lenAfter a s s.memLen)
  have ld := le_lenAfter dst s (lenAfter b s (lenAfter a s s.memLen))
  cases ha : readable a s
  · exact raise_ends _ w (readError_ne_none a s) (Nat.le_refl _) (by omega)
  have ua := lenAfter_le (len := s.memLen) ha
  cases hb : readable b s
  · simpa using raise_ends _ w (readError_ne_none b s) la ua
  have ub := lenAfter_le (len := lenAfter a s s.memLen) hb
  cases hd : writable dst s
  · simpa using raise_ends _ w (writeError_ne_none dst s) (by omega) (by omega)
  have hdl := destination_lt hd
  have ed := lenAfter_of_writable (lenAfter b s (lenAfter a s s.memLen)) hd
  cases hr : inRange64 (f (operandValue a s).toInt (operandValue b s).toInt)
  · simpa using raise_ends (s := s) (k := .arithmeticOverflow) s.pc.toInt w (L := lenAfter b s (lenAfter a s s.memLen))
      (by simp) (by omega) (by omega)
  · simp only [Bool.true_eq_false, if_false]
    refine ⟨_, rfl, .inr ⟨rfl, rfl, rfl, ?_, ?_, .inr ⟨_, _, ?_, rfl⟩, .inl rfl, .inl rfl, .inl rfl⟩⟩
    · show s.memLen ≤ lenAfter dst s _; omega
    · show lenAfter dst s _ ≤ _; omega
    · show destination dst s < lenAfter dst s _; omega

theorem storeCondition_ends (c : Word → Word → Bool) (w : Word) (a b dst : Param) (s : State) :
    ∃ t, storeCondition c w a b dst s = .next t ∧ RunEnd s t := by
  rw [storeCondition_eq]
  have la := le_lenAfter a s s.memLen
  have lb := le_lenAfter b s (lenAfter a s s.memLen)
  have ld := le_lenAfter dst s (lenAfter b s (lenAfter a s s.memLen))
  cases ha : readable a s
  · exact raise_ends _ w (readError_ne_none a s) (Nat.le_refl _) (by omega)
  have ua := lenAfter_le (len := s.memLen) ha
  cases hb : readable b s
  · simpa using raise_ends _ w (readError_ne_none b s) la ua
  have ub := lenAfter_le (len := lenAfter a s s.memLen) hb
  cases hd : writable dst s
  · simpa using raise_ends _ w (writeError_ne_none dst s) (by omega) (by omega)
  have hdl := destination_lt hd
  have ed := lenAfter_of_writable (lenAfter b s (lenAfter a s s.memLen)) hd
  simp only [Bool.true_eq_false, if_false]
  refine ⟨_, rfl, .inr ⟨rfl, rfl, rfl, ?_, ?_, .inr ⟨_, _, ?_, rfl⟩, .inl rfl, .inl rfl, .inl rfl⟩⟩
  · show s.memLen ≤ lenAfter dst s _; omega
  · show lenAfter dst s _ ≤ _; omega
  · show destination dst s < lenAfter dst s _; omega

theorem jumpIf_ends (c : Word → Bool) (w : Word) (a target : Param) (s : State) :
    ∃ t, jumpIf c w a target s = .next t ∧ RunEnd s t := by
  rw [jumpIf_eq]
  have la := le_lenAfter a s s.memLen
  have lb := le_lenAfter target s (lenAfter a s s.memLen)
  cases ha : readable a s
  · exact raise_ends _ w (readError_ne_none a s) (Nat.le_refl _) (by omega)
  have ua := lenAfter_le (len := s.memLen) ha
  cases hb : readable target s
  · simpa using raise_ends _ w (readError_ne_none target s) la ua
  have ub := lenAfter_le (len := lenAfter a s s.memLen) hb
  simp only [Bool.true_eq_false, if_false]
  refine ⟨_, rfl, .inr ⟨rfl, rfl, rfl, ?_, ?_, .inl rfl, .inl rfl, .inl rfl, .inl rfl⟩⟩
  · show s.memLen ≤ lenAfter target s _; omega
  · show lenAfter target s _ ≤ _; omega

theorem execInput_ends (dst : Param) (s : State) (hq : s.inQ ≠ []) : ∃ t, execInput dst s = .next t ∧ RunEnd s t := by
  unfold execInput
  cases h : s.inQ with
  | nil => exact absurd h hq
  | cons v rest =>
    cases hd : writable dst s
    · simpa [writeAddress_error hd] using
        raise_ends (s := s) (writeErrorAddr dst s) (Instr.input dst).word (writeError_ne_none dst s) (Nat.le_refl _)
          (Nat.le_max_left _ _)
    · have hdl := destination_lt hd
      simp only [writeAddress_ok hd, Access.orRaise_ok, commitStore]
      refine ⟨_, rfl, .inr ⟨rfl, rfl, rfl, ?_, ?_, .inr ⟨_, _, ?_, rfl⟩, .inr ⟨v, by simp [h]⟩, .inl rfl, .inl rfl⟩⟩
      · simp
      · simp; omega
      · simp

theorem execOutput_ends (a : Param) (s : State) (hf : outFull s = false) :
    ∃ t, execOutput a s = .next t ∧ RunEnd s t := by
  cases ha : readable a s
  · simpa [execOutput, hf, readOperand_error ha] using
      raise_ends (s := s) (operandAddress a s) (Instr.output a).word (readError_ne_none a s) (Nat.le_refl _)
        (Nat.le_max_left _ _)
  · simp only [execOutput, hf, readOperand_ok ha, Access.orRaise_ok, Bool.false_eq_true, if_false]
    exact ⟨_, rfl, .inr ⟨rfl, rfl, rfl, le_lenAfter a s s.memLen, lenAfter_le ha, .inl rfl, .inl rfl,
      .inr ⟨hf, _, rfl⟩, .inl rfl⟩⟩

theorem execArb_ends (a : Param) (s : State) : ∃ t, execArb a s = .next t ∧ RunEnd s t := by
  unfold execArb
  cases ha : readable a s
  · simpa [readOperand_error ha] using
      raise_ends (s := s) (operandAddress a s) (Instr.arb a).word (readError_ne_none a s) (Nat.le_refl _)
        (Nat.le_max_left _ _)
  · have la := le_lenAfter a s s.memLen
    have ua := lenAfter_le (len := s.memLen) ha
    simp only [readOperand_ok ha, Access.orRaise_ok]
    cases hr : inRange64 (s.rb.toInt + (operandValue a s).toInt)
    · rw [inRangeOrRaise_error _ _ _ hr]
      exact raise_ends (s := s) s.pc.toInt _ (by simp) la ua
    · rw [inRangeOrRaise_ok _ _ _ hr]
      exact ⟨_, rfl, .inr ⟨rfl, rfl, rfl, la, ua, .inl rfl, .inl rfl, .inl rfl, .inl rfl⟩⟩

theorem execHlt_ends (s : State) : ∃ t, execHlt s = .next t ∧ RunEnd s t :=
  ⟨_, rfl, .inr ⟨rfl, rfl, rfl, Nat.le_refl _, Nat.le_max_left _ _, .inl rfl, .inl rfl, .inl rfl, .inr rfl⟩⟩

/-- What an instruction waits for is there: no Input of an empty queue, no Output into a full one. -/
def Unblocked (i : Instr) (s : State) : Prop :=
  match i with
  | .input _ => s.inQ ≠ []
  | .output _ => outFull s = false
  | .add .. | .mul .. | .jt .. | .jf .. | .lt .. | .eq .. | .arb .. | .hlt => True

/-- An instruction that has what it waits for raises or commits. -/
theorem exec_ends_of_unblocked (i : Instr) (s : State) (h : Unblocked i s) : ∃ t, exec i s = .next t ∧ RunEnd s t := by
  cases i with
  | add a b dst => exact storeExact_ends _ _ a b dst s
  | mul a b dst => exact storeExact_ends _ _ a b dst s
  | input dst => exact execInput_ends dst s h
  | output a => exact execOutput_ends a s h
  | jt a target => exact jumpIf_ends _ _ a target s
  | jf a target => exact jumpIf_ends _ _ a target s
  | lt a b dst => exact storeCondition_ends _ _ a b dst s
  | eq a b dst => exact storeCondition_ends _ _ a b dst s
  | arb a => exact execArb_ends a s
  | hlt => exact execHlt_ends s

/-- Every instruction answers a next state and ends in one of the three ways. -/
theorem exec_ends (i : Instr) (s : State) : ∃ t, exec i s = .next t ∧ ExecEnd s t := by
  by_cases h : Unblocked i s
  · obtain ⟨t, ht, he⟩ := exec_ends_of_unblocked i s h
    exact ⟨t, ht, he.execEnd⟩
  · cases i with
    | input dst =>
      have hq : s.inQ = [] := by simpa [Unblocked] using h
      exact ⟨_, by simp only [exec, execInput, hq, blockNoInput], .inr (.inl (.noInput hq))⟩
    | output a =>
      have hf : outFull s = true := by simpa [Unblocked] using h
      exact ⟨s, by simp [exec, execOutput, hf, blockOutputFull], .inr (.inl (.outputFull hf))⟩
    | add | mul | jt | jf | lt | eq | arb | hlt => exact absurd trivial h

/-- A meaning that answers `t` ends in one of the three ways. -/
theorem exec_cases {i : Instr} {s t : State} (h : exec i s = .next t) : ExecEnd s t := by
  obtain ⟨t', h', he⟩ := exec_ends i s
  cases h.symm.trans h'
  exact he

/-- How a step of `s` ends: idle, a fatal error, or an instruction run on `s` with a longer memory. -/
theorem step_cases (s : State) :
    (ready s = false ∧ step s = .next s) ∨
    (ready s = true ∧ ∃ t, step s = .next t ∧ Raised s t) ∨
    (ready s = true ∧ ∃ i L, s.memLen ≤ L ∧ L ≤ max s.memLen s.cfg.memCap ∧
      fetchInstr s = .fetched i { s with memLen := L } ∧ step s = exec i { s with memLen := L }) := by
  cases hr : ready s
  · exact .inl ⟨rfl, by simp [step, hr]⟩
  · rcases fetchInstr_cases s with ⟨i, L, h1, h2, h⟩ | ⟨k, a, w, L, hk, h1, h2, h⟩
    · exact .inr (.inr ⟨rfl, i, L, h1, h2, h, by simp [step, hr, h]⟩)
    · exact .inr (.inl ⟨rfl, _, by simp only [step, hr, h, if_true], ⟨k, a, w, L, hk, h1, h2, rfl⟩⟩)

end Sys2Proof.Machine
end

