-- ==== Sys2Proof/Laws/HostPort.lean ====
section
/-! SUPPORT. What STEP can answer, said once (R183, R186), and the two host memory accesses. -/

namespace Sys2Proof.Machine

theorem ready_iff (s : State) :
    ready s = true ↔ s.loaded = true ∧ s.fault.kind = .none ∧ s.state ≠ .stopped := by
  simp [ready, and_assoc]

/-- The queue check names a block exactly where the instruction lacks what it waits for. -/
theorem blockedBy_eq_none_iff (i : Instr) (s : State) : blockedBy i s = none ↔ Unblocked i s := by
  cases i <;> simp [blockedBy, Unblocked, inEmpty]

/-- Which instruction lacks its input or its room, and what it does (R130, R131). -/
theorem exec_of_blockedBy {i : Instr} {s : State} {b : BlockReason} (h : blockedBy i s = some b) :
    (b = .noInput ∧ i.opcode = .input ∧ s.inQ = [] ∧ exec i s = .next { s with state := .waitingForInput }) ∨
    (b = .outputFull ∧ i.opcode = .output ∧ outFull s = true ∧ exec i s = .next s) := by
  cases i with
  | input dst =>
    by_cases hq : s.inQ = [] <;> simp [blockedBy, inEmpty, hq] at h
    subst h
    exact .inl ⟨rfl, rfl, hq, by simp only [exec, execInput, hq, blockNoInput]⟩
  | output a =>
    cases hf : outFull s <;> simp [blockedBy, hf] at h
    subst h
    exact .inr ⟨rfl, rfl, rfl, by simp [exec, execOutput, hf, blockOutputFull]⟩
  | add | mul | jt | jf | lt | eq | arb | hlt => simp [blockedBy] at h

/-- STEP leaves the state of `step`. -/
theorem stepReply_eq {s t : State} (h : step s = .next t) : stepReply s = .next (stepResponse s t, t) := by
  simp [stepReply, h]

/-- What STEP answers, case by case. -/
theorem stepReply_cases (s : State) :
    (ready s = false ∧ ∃ r, (r = .notLoaded ∨ r = .fatal s.fault ∧ s.fault.kind ≠ .none ∨ r = .stoppedError) ∧
      stepReply s = .next (r, s)) ∨
    (ready s = true ∧ ∃ t, Raised s t ∧ stepReply s = .next (.fatal t.fault, t)) ∨
    (ready s = true ∧ s.inQ = [] ∧ ∃ i L, s.memLen ≤ L ∧ L ≤ max s.memLen s.cfg.memCap ∧ i.opcode = .input ∧
      fetchInstr s = .fetched i { s with memLen := L } ∧
      stepReply s = .next (.blocked .noInput, { s with memLen := L, state := .waitingForInput })) ∨
    (ready s = true ∧ outFull s = true ∧ ∃ i L, s.memLen ≤ L ∧ L ≤ max s.memLen s.cfg.memCap ∧ i.opcode = .output ∧
      fetchInstr s = .fetched i { s with memLen := L } ∧
      stepReply s = .next (.blocked .outputFull, { s with memLen := L })) ∨
    (ready s = true ∧ ∃ t, Committed s t ∧ stepReply s = .next (.progressed t.state, t)) := by
  rcases step_cases s with ⟨hr, hs⟩ | ⟨hr, t, hs, ht⟩ | ⟨hr, i, L, h1, h2, hf, hs⟩
  · refine .inl ⟨hr, stepResponse s s, ?_, by rw [stepReply, hs]⟩
    have hr' : ¬(s.loaded = true ∧ s.fault.kind = .none ∧ s.state ≠ .stopped) := by
      rw [← ready_iff, hr]; exact Bool.false_ne_true
    unfold stepResponse
    by_cases hl : s.loaded = true
    · by_cases hk : s.fault.kind = .none
      · have : s.state = .stopped := by by_contra h; exact hr' ⟨hl, hk, h⟩
        simp [hl, hk, this]
      · simp [hl, hk]
    · simp [hl]
  · obtain ⟨hl, hk, hst⟩ := (ready_iff s).1 hr
    have : t.fault.kind ≠ .none := by
      obtain ⟨k, a, w, L, hk', _, _, rfl⟩ := ht
      exact hk'
    exact .inr (.inl ⟨hr, t, ht, by simp [stepReply, hs, stepResponse, hl, hk, hst, this]⟩)
  · obtain ⟨hl, hk, hst⟩ := (ready_iff s).1 hr
    have hsb : stepBlock s = blockedBy i { s with memLen := L } := by simp only [stepBlock, hf]
    cases hb : blockedBy i { s with memLen := L } with
    | some b =>
      rcases exec_of_blockedBy hb with ⟨rfl, hop, hq, he⟩ | ⟨rfl, hop, ho, he⟩
      · exact .inr (.inr (.inl ⟨hr, hq, i, L, h1, h2, hop, hf, by
          rw [stepReply_eq (hs.trans he)]; simp [stepResponse, hl, hk, hst, hsb.trans hb]⟩))
      · exact .inr (.inr (.inr (.inl ⟨hr, ho, i, L, h1, h2, hop, hf, by
          rw [stepReply_eq (hs.trans he)]; simp [stepResponse, hl, hk, hst, hsb.trans hb]⟩)))
    | none =>
      obtain ⟨t, he, hr' | hc⟩ := exec_ends_of_unblocked i _ ((blockedBy_eq_none_iff i _).1 hb)
      · obtain ⟨k, a, w, L', hk', g1, g2, rfl⟩ := hr'
        refine .inr (.inl ⟨hr, _, ⟨k, a, w, L', hk', Nat.le_trans h1 g1, ?_, rfl⟩, ?_⟩)
        · have g2 : L' ≤ max L s.cfg.memCap := g2
          omega
        · rw [stepReply_eq (hs.trans he)]; simp [stepResponse, hl, hk, hst, hk']
      · refine .inr (.inr (.inr (.inr ⟨hr, t, ?_, ?_⟩)))
        · have g1 : L ≤ t.memLen := hc.len_le
          have g2 : t.memLen ≤ max L s.cfg.memCap := hc.len_cap
          exact ⟨hc.cfg, hc.loaded, hc.fault, by omega, by omega, hc.mem, hc.inQ, hc.outQ, hc.state⟩
        · have : t.fault.kind = .none := by rw [hc.fault]; exact hk
          rw [stepReply_eq (hs.trans he)]; simp [stepResponse, hl, hk, hst, hsb.trans hb, this]

/-- MEM_READ's two ends (R209). -/
theorem hostRead_cases (s : State) (a : Int) :
    (addressOk s a = true ∧ hostRead a s = (.value (s.mem.read a.toNat), s)) ∨
    (addressOk s a = false ∧ hostRead a s = (.addrError (addressError a) a, s)) := by
  cases h : addressOk s a
  · exact .inr ⟨rfl, by simp [hostRead, checkAddr_error h]⟩
  · exact .inl ⟨rfl, by simp [hostRead, checkAddr_ok h]⟩

/-- MEM_WRITE's two ends (R208). -/
theorem hostWrite_cases (s : State) (a : Int) (v : Word) :
    (addressOk s a = true ∧ hostWrite a v s = (.ok, s.storeWord a.toNat v)) ∨
    (addressOk s a = false ∧ hostWrite a v s = (.addrError (addressError a) a, s)) := by
  cases h : addressOk s a
  · exact .inr ⟨rfl, by simp [hostWrite, memWrite, checkAddr_error h]⟩
  · exact .inl ⟨rfl, by simp [hostWrite, memWrite, checkAddr_ok h]⟩

end Sys2Proof.Machine
end

