-- ==== Sys2Proof/Machine/Assembler.lean ====
section
/-! DEFINITION. The spec's assembly (R100 to R102 of 30_encoding.md), from its lines as data to the words of a snapshot.
Reading a line's text, and its comments, is the host's (R8(c); log entry 18). -/

namespace Sys2Proof.Machine

/-- A bare integer or label (R100). -/
inductive AsmValue where
  | int (n : Int)
  | label (name : String)
  deriving DecidableEq, Repr

/-- An operand: `[n]`, `n` or `[rb+n]` (R100). -/
inductive AsmOperand where
  | pos (n : Int)
  | imm (v : AsmValue)
  | rel (n : Int)
  deriving DecidableEq, Repr

/-- A line: a label, an instruction, a pseudo-instruction (R101) or `.word` (R100). -/
inductive AsmLine where
  | label (name : String)
  | instr (op : Opcode) (operands : List AsmOperand)
  | mov (a dst : AsmOperand)
  | jmp (t : AsmOperand)
  | nop
  | words (vs : List Int)
  deriving DecidableEq, Repr

/-- A pseudo-instruction as the instruction it assembles to (R101); other lines as they are. -/
def AsmLine.expand : AsmLine → AsmLine
  | .label name => .label name
  | .instr op operands => .instr op operands
  | .mov a dst => .instr .add [a, .imm (.int 0), dst]
  | .jmp t => .instr .jt [.imm (.int 1), t]
  | .nop => .instr .jt [.imm (.int 0), .imm (.int 0)]
  | .words vs => .words vs

/-- How many words a line emits (R84, R100). -/
def AsmLine.size (l : AsmLine) : Nat :=
  match l.expand with
  | .label _ => 0
  | .instr op _ => 1 + op.nparams
  | .words vs => vs.length
  | .mov _ _ => 4
  | .jmp _ => 3
  | .nop => 3

/-- The labels with their addresses, the first line at address `a` (R100). -/
def asmLabels : Nat → List AsmLine → List (String × Nat)
  | _, [] => []
  | a, .label name :: ls => (name, a) :: asmLabels a ls
  | a, l :: ls => asmLabels (a + l.size) ls

/-- An integer as a word, if it is one (R14). -/
def asmWord (n : Int) : Option Word := if inRange64 n then some (Word.ofInt n) else none

/-- A value, its label looked up. -/
def AsmValue.word (labels : List (String × Nat)) : AsmValue → Option Word
  | .int n => asmWord n
  | .label name => (labels.lookup name).bind fun a => asmWord a

/-- An operand as a parameter. -/
def AsmOperand.param (labels : List (String × Nat)) : AsmOperand → Option Param
  | .pos n => (asmWord n).map fun w => ⟨.position, w⟩
  | .imm v => (v.word labels).map fun w => ⟨.immediate, w⟩
  | .rel n => (asmWord n).map fun w => ⟨.relative, w⟩

/-- The instruction of an opcode and its parameters, if there are as many as it has (R85). -/
def Opcode.instr (op : Opcode) (ps : List Param) : Option Instr :=
  if ps.length = op.nparams then some ((⟨op, ps.map Param.mode⟩ : Head).instr (ps.map Param.lit)) else none

/-- The words of a line (R100, R102); none for a wrong number of operands, an unknown label, a number that is no word,
or an Immediate destination. -/
def AsmLine.emit (labels : List (String × Nat)) (l : AsmLine) : Option (List Word) :=
  match l.expand with
  | .label _ => some []
  | .instr op operands =>
    (operands.mapM (AsmOperand.param labels)).bind fun ps =>
    (Opcode.instr op ps).bind fun i => if i.wellFormed then some (encode i) else none
  | .words vs => vs.mapM asmWord
  | .mov _ _ => none
  | .jmp _ => none
  | .nop => none

/-- The snapshot of a program, its first line at address 0; none where a line emits none or a label is defined twice. -/
def assemble (ls : List AsmLine) : Option (List Word) :=
  if ((asmLabels 0 ls).map Prod.fst).Nodup then (ls.mapM (AsmLine.emit (asmLabels 0 ls))).map List.flatten else none

end Sys2Proof.Machine
end

