-- ==== Sys2Proof/Tests/Slice0.lean ====
section
/-! SUPPORT. Tests: the well-formedness checks, words written out from the encoding tables, one-step tests with the
results of 95_test_vectors.md, and a witness for every statement of Obligations.lean that has hypotheses. -/

namespace Sys2Proof.Tests

open Sys2Proof Sys2Proof.Machine

/-! Helpers. -/

/-- An instance of capacity `cap`, queues without a bound, with the words `ws` loaded. -/
def boot (cap : Nat) (ws : List Word) : State :=
  (load ws { State.reset with cfg := ⟨cap, .inf, .inf⟩ }).2

/-- The state a result goes on to (the first one if it does not). -/
def after (s : State) : Result → State
  | .next t => t
  | .fault _ => s
  | .refused _ => s

/-- The state after one step. -/
def stepped (s : State) : State := after s (step s)

/-- The greatest and the least word. -/
def maxWord : Word := 9223372036854775807
def minWord : Word := -9223372036854775808

/-! Well-formedness: an Immediate destination is refused (R95), anything else is not. -/

theorem test_wellFormed_refuses_add : (Instr.add (.imm 1) (.imm 1) (.imm 5)).wellFormed = false := by decide
theorem test_wellFormed_refuses_mul : (Instr.mul (.pos 1) (.pos 1) (.imm 5)).wellFormed = false := by decide
theorem test_wellFormed_refuses_input : (Instr.input (.imm 0)).wellFormed = false := by decide
theorem test_wellFormed_refuses_lt : (Instr.lt (.rel 1) (.imm 1) (.imm 5)).wellFormed = false := by decide
theorem test_wellFormed_refuses_eq : (Instr.eq (.imm 1) (.pos 1) (.imm 5)).wellFormed = false := by decide
theorem test_wellFormed_accepts :
    ([Instr.add (.imm 1) (.rel 1) (.rel 5), .mul (.imm 1) (.imm 1) (.pos 5), .input (.rel 0), .output (.imm 1),
      .jt (.imm 1) (.imm 2), .jf (.rel 1) (.pos 2), .lt (.pos 1) (.pos 1) (.pos 5), .eq (.pos 1) (.imm 1) (.rel 5),
      .arb (.imm 1), .hlt].all Instr.wellFormed) = true := by decide

/-! Decoding: words written out digit by digit from R81, R85 and R102. -/

theorem test_decode_add : decode [20101, 7, 8, 9] = .ok (.add (.imm 7) (.pos 8) (.rel 9), []) := by decide
theorem test_decode_mul : decode [1002, 4, 3, 4, 33] = .ok (.mul (.pos 4) (.imm 3) (.pos 4), [33]) := by decide
theorem test_decode_input : decode [203, -1] = .ok (.input (.rel (-1)), []) := by decide
theorem test_decode_input_position : decode [3, 5] = .ok (.input (.pos 5), []) := by decide
theorem test_decode_output : decode [204, 1] = .ok (.output (.rel 1), []) := by decide
theorem test_decode_jt : decode [1005, 6, 7] = .ok (.jt (.pos 6) (.imm 7), []) := by decide
theorem test_decode_jf : decode [2106, 0, 1] = .ok (.jf (.imm 0) (.rel 1), []) := by decide
theorem test_decode_lt : decode [21107, 1, 2, 0] = .ok (.lt (.imm 1) (.imm 2) (.rel 0), []) := by decide
theorem test_decode_eq : decode [2108, 5, 6, 7] = .ok (.eq (.imm 5) (.rel 6) (.pos 7), []) := by decide
theorem test_decode_arb : decode [109, -5] = .ok (.arb (.imm (-5)), []) := by decide
theorem test_decode_hlt : decode [99] = .ok (.hlt, []) := by decide

theorem test_refuses_immediate_destination : decodeHead 11101 = .error .immediateWrite := by decide
theorem test_refuses_immediate_input : decodeHead 103 = .error .immediateWrite := by decide
theorem test_refuses_excess_digit_of_halt : decodeHead 199 = .error .excessDigits := by decide
theorem test_refuses_excess_digit_of_jump : decodeHead 10105 = .error .excessDigits := by decide
theorem test_refuses_mode_digit_three : decodeHead 30001 = .error .badModeDigit := by decide
theorem test_refuses_opcode_ten : decodeHead 10 = .error .unknownOpcode := by decide
theorem test_refuses_zero : decodeHead 0 = .error .unknownOpcode := by decide
theorem test_refuses_negative : decodeHead minWord = .error .negativeWord := by decide

theorem test_encode_add : encode (.add (.rel 3) (.imm 7) (.rel (-1))) = [21201, 3, 7, -1] := by decide
theorem test_encode_jf : encode (.jf (.rel 0) (.rel 1)) = [2206, 0, 1] := by decide

/-- The examples of R102, and a jump over data to a label. -/
theorem test_assemble_add : assemble [.instr .add [.rel 3, .imm (.int 7), .rel (-1)]] = some [21201, 3, 7, -1] := by decide
theorem test_assemble_label :
    assemble [.jmp (.imm (.label "end")), .words [7, -7], .label "end", .instr .hlt []]
      = some [1105, 1, 5, 7, -7, 99] := by decide
theorem test_assemble_refuses_immediate_destination : assemble [.mov (.pos 0) (.imm (.int 5))] = none := by decide

/-- The first word is the low 64 bits; the words the table gives no bits are 0. -/
theorem test_table_word_mul : decodeTableWord 64 1002 = some (.mul (.pos 0) (.imm 0) (.pos 0)) := by decide
theorem test_table_word_output : decodeTableWord 128 (104 + 2 ^ 64 * 5) = some (.output (.imm 5)) := by decide
theorem test_table_word_illegal : decodeTableWord 64 11101 = none := by decide

/-- A loaded word is the next step's instruction, from reset and from a stopped instance with a pc beyond memory. -/
theorem test_withFetchWord_from_reset : (stepped (State.reset.withFetchWord 64 99)).state = .stopped := by decide
theorem test_withFetchWord_from_anywhere :
    (stepped (({ boot 8 [99] with pc := maxWord, state := .stopped } : State).withFetchWord 128 (104 + 2 ^ 64 * 5))).outQ
      = [5] := by decide

/-! One step each, results from 95_test_vectors.md. -/

/-- V-ADD-1 (E2). -/
theorem test_add : (stepped (boot 100 [1, 0, 0, 0, 99])).mem = [(0, 2), (4, 99)] := by decide
/-- V-ADD-3. -/
theorem test_add_overflow :
    (stepped (boot 100 [1101, maxWord, 1, 5, 99, 0])).fault = ⟨.arithmeticOverflow, 0, 1101⟩ := by decide
/-- V-MUL-1. -/
theorem test_mul : (stepped (boot 100 [1002, 4, 3, 4, 33])).mem.read 4 = 99 := by decide
/-- V-MUL-2: the one product of the least word that has no negative. -/
theorem test_mul_overflow :
    (stepped (boot 100 [1102, minWord, -1, 5, 99, 0])).fault = ⟨.arithmeticOverflow, 0, 1102⟩ := by decide
/-- V-IO-1. -/
theorem test_input : (stepped { boot 100 [3, 0, 99] with inQ := [7] }).mem.read 0 = 7 := by decide
/-- V-IO-3: the block comes before the address error. -/
theorem test_input_blocks_first : stepped (boot 100 [203, -1, 99]) = { boot 100 [203, -1, 99] with state := .waitingForInput } := by
  decide
/-- V-IO-8, with rb set by hand. -/
theorem test_output : (stepped { boot 100 [204, 3, 99, 0, 0, 1] with rb := 2 }).outQ = [1] := by decide
/-- V-IO-9, its second step. -/
theorem test_output_full :
    (stepped { boot 100 [104, 2, 99] with cfg := ⟨100, .inf, .words 1⟩, outQ := [1] }).pc = 0 := by decide
/-- V-JMP-6. -/
theorem test_jt : (stepped (boot 100 [5, 6, 7, 99, 0, 0, 1, 8, 99])).pc = 8 := by decide
/-- V-JMP-9: the target is resolved although the jump is not taken. -/
theorem test_jt_resolves_target : (stepped (boot 100 [105, 0, -1, 99])).fault = ⟨.invalidAddress, -1, 105⟩ := by decide
/-- V-JMP-4. -/
theorem test_jf : (stepped (boot 100 [1106, 0, 7, 99, 0, 0, 0, 99])).pc = 7 := by decide
/-- V-JMP-5. -/
theorem test_jf_not_taken : (stepped (boot 100 [1106, 5, 7, 99])).pc = 3 := by decide
/-- V-CMP-3. -/
theorem test_lt_signed : (stepped (boot 100 [1107, minWord, maxWord, 5, 99, 9])).mem.read 5 = 1 := by decide
/-- V-CMP-2. -/
theorem test_lt_equal : (stepped (boot 100 [1107, 4, 4, 5, 99, 9])).mem.read 5 = 0 := by decide
/-- V-CMP-10: the result goes over the instruction's own opcode word. -/
theorem test_eq_over_itself :
    (stepped (boot 100 [1108, -5, -5, 0, 99])).mem = [(0, 1), (1, -5), (2, -5), (4, 99)] := by decide
/-- V-CMP-8. -/
theorem test_eq_unequal : (stepped (boot 100 [1108, 1, -1, 5, 99, 9])).mem.read 5 = 0 := by decide
/-- V-ARB-5, its second step: the operand is read with the old rb. -/
theorem test_arb : (stepped { boot 100 [209, 1, 99, 0, 50] with rb := 3 }).rb = 53 := by decide
/-- V-ARB-2, its second step. -/
theorem test_arb_overflow :
    (stepped { boot 100 [109, 1, 99] with rb := maxWord }).fault = ⟨.arithmeticOverflow, 0, 109⟩ := by decide
/-- V-HLT-1. -/
theorem test_hlt : (stepped (boot 100 [99])).pc = 1 := by decide
/-- V-MEM-1: a read beyond the length gives 0 and grows memory. -/
theorem test_growth : (stepped (boot 200 [1, 100, 0, 0, 99])).memLen = 101 := by decide
/-- V-MEM-3: no growth by the failing destination. -/
theorem test_capacity : (stepped (boot 8 [1101, 1, 1, 8, 99])).fault = ⟨.capacityExceeded, 8, 1101⟩ := by decide
/-- V-MEM-4: the literal fetch at MEM_CAP. -/
theorem test_literal_capacity : (stepped (boot 3 [1101, 1, 1])).fault = ⟨.capacityExceeded, 3, 1101⟩ := by decide

/-! Witnesses: concrete states that meet a statement's hypotheses together, at boundary values. -/

/-- `s` of the witnesses about ADD, MUL, LT and EQ: capacity 8, the highest cell listed. -/
def sample : State := boot 8 [1101, 1, 2, 7, 99, 0, 0, 5]

theorem witness_DecodeOfEncodeIsTheInstruction : (Instr.add (.rel 3) (.imm 7) (.rel (-1))).wellFormed = true := by decide

theorem witness_DecodedWordsAreAnEncoding : decode [2206, 0, 1, 99] = .ok (.jf (.rel 0) (.rel 1), [99]) := by decide

/-- The last word of the instruction is the last cell there is. -/
theorem witness_StepRunsTheDecodedInstruction :
    ready (boot 4 [1101, 1, 2, 3]) = true ∧ 0 ≤ (boot 4 [1101, 1, 2, 3]).pc.toInt
      ∧ (boot 4 [1101, 1, 2, 3]).pc.toInt + (Instr.add (.imm 1) (.imm 2) (.pos 3)).length
        ≤ (boot 4 [1101, 1, 2, 3]).cfg.memCap
      ∧ decode (wordsAt (boot 4 [1101, 1, 2, 3]) 0 4) = .ok (.add (.imm 1) (.imm 2) (.pos 3), []) := by decide

theorem witness_FetchedInstructionHasTheFetchedWord :
    fetchInstr (boot 8 [104]) = .fetched (.output (.imm 0)) { boot 8 [104] with memLen := 2 } := by decide

theorem witness_SequentialPcDoesNotWrap :
    (boot 4 [1101, 1, 2, 3]).cfg.legal = true
      ∧ fetchInstr (boot 4 [1101, 1, 2, 3]) = .fetched (.add (.imm 1) (.imm 2) (.pos 3)) (boot 4 [1101, 1, 2, 3]) := by
  decide

theorem witness_FetchAtAnIllegalPcIsLatched_negative :
    ready { sample with pc := -1 } = true ∧ ({ sample with pc := -1 } : State).pc.toInt < 0 := by decide

theorem witness_FetchAtAnIllegalPcIsLatched_capacity :
    ready { sample with pc := 8 } = true ∧ (sample.cfg.memCap : Int) ≤ ({ sample with pc := 8 } : State).pc.toInt := by
  decide

/-- At the last legal pc, the word 0. -/
theorem witness_IllegalWordIsLatched :
    ready { boot 8 [] with pc := 7 } = true ∧ (7 : Word).toInt < (boot 8 []).cfg.memCap
      ∧ decodeHead ((boot 8 []).mem.read 7) = .error .unknownOpcode := by decide

theorem witness_IllegalWordIsLatched_negative :
    ready (boot 8 [-1]) = true ∧ ((boot 8 [-1]).mem.read 0).toInt < 0 := by decide

/-- The first literal is at MEM_CAP itself. -/
theorem witness_LiteralBeyondCapacityIsLatched :
    (boot 3 [0, 0, 1105]).cfg.legal = true ∧ ready { boot 3 [0, 0, 1105] with pc := 2 } = true
      ∧ decodeHead ((boot 3 [0, 0, 1105]).mem.read 2) = .ok ⟨.jt, [.immediate, .immediate]⟩
      ∧ ((boot 3 [0, 0, 1105]).cfg.memCap : Int) ≤ (2 : Word).toInt + Opcode.jt.nparams := by decide

theorem witness_StoppedStepChangesNothing :
    (stepped (boot 8 [99])).loaded = true ∧ (stepped (boot 8 [99])).fault.kind = .none
      ∧ (stepped (boot 8 [99])).state = .stopped := by decide

theorem witness_OnlyLoadClearsTheLatch :
    (stepped (boot 8 [0])).loaded = true ∧ (stepped (boot 8 [0])).fault.kind ≠ .none
      ∧ Transaction.status.isLoad = false ∧ (load [99] (stepped (boot 8 [0]))).1 = .ok := by decide

theorem witness_RefusedTransactionsChangeNothing :
    ({ sample with loaded := false } : State).loaded = false ∧ Transaction.step.isLoad = false
      ∧ (boot 2 []).cfg.memCap < [104, 5, (99 : Word)].length := by decide

/-- The greatest sum, stored in the last cell. -/
theorem witness_AddStoresTheExactSum :
    readable ⟨.immediate, maxWord⟩ sample = true ∧ readable (.pos 5) sample = true ∧ writable (.pos 7) sample = true
      ∧ inRange64 ((operandValue ⟨.immediate, maxWord⟩ sample).toInt + (operandValue (.pos 5) sample).toInt) = true := by
  decide

/-- The least product. -/
theorem witness_MulStoresTheExactProduct :
    readable ⟨.immediate, minWord⟩ sample = true ∧ readable (.pos 1) sample = true ∧ writable (.rel 7) sample = true
      ∧ inRange64 ((operandValue ⟨.immediate, minWord⟩ sample).toInt * (operandValue (.pos 1) sample).toInt) = true := by
  decide

/-- One more than the greatest word, by a sum and by a product. -/
theorem witness_OverflowOfAddAndMulIsLatched :
    writable (.pos 7) sample = true
      ∧ inRange64 ((operandValue ⟨.immediate, maxWord⟩ sample).toInt + (operandValue (.imm 1) sample).toInt) = false
      ∧ inRange64 ((operandValue ⟨.immediate, minWord⟩ sample).toInt * (operandValue (.imm (-1)) sample).toInt) = false := by
  decide

/-- The destination is the address of both operands. -/
theorem witness_DestinationMayBeAnOperand :
    sample.mem.wf = true ∧ readable (.pos 7) sample = true ∧ writable (.pos 7) sample = true
      ∧ inRange64 ((operandValue (.pos 7) sample).toInt + (operandValue (.pos 7) sample).toInt) = true
      ∧ inRange64 ((operandValue (.pos 7) sample).toInt * (operandValue (.pos 7) sample).toInt) = true := by decide

theorem witness_LtStoresTheSignedComparison :
    readable ⟨.immediate, minWord⟩ sample = true ∧ readable (.pos 0) sample = true ∧ writable (.pos 7) sample = true := by
  decide

theorem witness_EqStoresTheEquality :
    readable (.pos 7) sample = true ∧ readable (.rel 7) sample = true ∧ writable (.pos 0) sample = true := by decide

theorem witness_ComparisonsWriteZeroOrOne :
    sample.mem.wf = true ∧ readable (.imm 4) sample = true ∧ readable (.pos 7) sample = true
      ∧ writable (.pos 0) sample = true := by decide

theorem witness_InputStoresTheOldestInput :
    ({ sample with inQ := [4, 5] } : State).inQ = 4 :: [5] ∧ writable (.pos 7) { sample with inQ := [4, 5] } = true := by
  decide

theorem witness_InputBlocksOnAnEmptyQueue : sample.inQ = [] := by decide

/-- Room for exactly one more. -/
theorem witness_OutputAppendsItsOperand :
    outFull { sample with cfg := ⟨8, .inf, .words 2⟩, outQ := [1] } = false
      ∧ readable (.pos 7) { sample with cfg := ⟨8, .inf, .words 2⟩, outQ := [1] } = true := by decide

/-- Without a bound, one below a bound of 2, and at it. -/
theorem witness_OutputWaitsOnlyOnAFullQueue :
    sample.cfg.outDepth = .inf ∧ (⟨8, .inf, .words 2⟩ : Config).outDepth = .words 2
      ∧ ({ sample with outQ := [1] } : State).outQ.length ≠ 2
      ∧ ({ sample with outQ := [1, 2] } : State).outQ.length = 2 := by decide

theorem witness_InputThenOutputYieldsTheValue :
    sample.mem.wf = true ∧ ({ sample with inQ := [7] } : State).inQ = 7 :: [] ∧ addressOk sample (7 : Word).toInt = true
      ∧ outFull sample = false := by decide

theorem witness_BlockedInputResumesExactlyOnce :
    (boot 2 [3, 1]).mem.wf = true ∧ (boot 2 [3, 1]).cfg.legal = true ∧ ready (boot 2 [3, 1]) = true
      ∧ (boot 2 [3, 1]).inQ = [] ∧ (boot 2 [3, 1]).pc.toInt + 2 ≤ (boot 2 [3, 1]).cfg.memCap
      ∧ decode (wordsAt (boot 2 [3, 1]) 0 2) = .ok (.input (.pos 1), []) ∧ writable (.pos 1) (boot 2 [3, 1]) = true := by
  decide

theorem witness_QueuesKeepTheirOrder_input :
    step { boot 8 [3, 7] with inQ := [4, 5] }
      = .next { boot 8 [3, 7] with mem := [(0, 3), (1, 7), (7, 4)], memLen := 8, inQ := [5], pc := 2 } := by rfl

theorem witness_QueuesKeepTheirOrder_output :
    step { boot 8 [104, 2] with outQ := [1] } = .next { boot 8 [104, 2] with outQ := [1, 2], pc := 2 } := by rfl

/-- An Output with room for exactly one more value. -/
theorem witness_QueuesKeepTheirOrder_room :
    ready { boot 8 [104, 2] with cfg := ⟨8, .inf, .words 2⟩, outQ := [1] } = true
      ∧ (∃ u, fetchInstr { boot 8 [104, 2] with cfg := ⟨8, .inf, .words 2⟩, outQ := [1] } = .fetched (.output (.imm 2)) u)
      ∧ outFull { boot 8 [104, 2] with cfg := ⟨8, .inf, .words 2⟩, outQ := [1] } = false
      ∧ (stepped { boot 8 [104, 2] with cfg := ⟨8, .inf, .words 2⟩, outQ := [1] }).fault.kind = .none :=
  ⟨rfl, ⟨_, rfl⟩, rfl, rfl⟩

theorem witness_QueuesKeepTheirOrder_transaction :
    transact 1 .runUntilOutput (boot 8 [104, 2]) = some (.next (.value 2, { boot 8 [104, 2] with pc := 2 })) := by rfl

theorem witness_JtJumpsWhenNonzero : readable (.imm (-1)) sample = true ∧ readable (.pos 7) sample = true := by decide

theorem witness_JfJumpsWhenZero : readable (.pos 5) sample = true ∧ readable (.rel 7) sample = true := by decide

/-- The targets -1, MEM_CAP and the memory's length. -/
theorem witness_IllegalTargetFailsAtTheNextFetch :
    (boot 8 [1105, 1, 0]).inv = true ∧ ready (boot 8 [1105, 1, 0]) = true
      ∧ operandValue (.imm 1) (boot 8 [1105, 1, 0]) ≠ 0
      ∧ (operandValue (.imm (-1)) (boot 8 [1105, 1, 0])).toInt < 0
      ∧ ((boot 8 [1105, 1, 0]).cfg.memCap : Int) ≤ (operandValue (.imm 8) (boot 8 [1105, 1, 0])).toInt
      ∧ ((boot 8 [1105, 1, 0]).memLen : Int) ≤ (operandValue (.imm 3) (boot 8 [1105, 1, 0])).toInt := by decide

/-- JT of Immediates, and JF whose operands are Position and Relative: its target is `mem[4] = 0`. -/
theorem witness_JumpToItselfNeverReturns :
    (ready (boot 3 [1105, 1, 0]) = true ∧ (boot 3 [1105, 1, 0]).pc.toInt + 3 ≤ (boot 3 [1105, 1, 0]).cfg.memCap
      ∧ decode (wordsAt (boot 3 [1105, 1, 0]) 0 3) = .ok (.jt (.imm 1) (.imm 0), [])
      ∧ operandValue (.imm 1) (boot 3 [1105, 1, 0]) ≠ 0
      ∧ operandValue (.imm 0) (boot 3 [1105, 1, 0]) = (boot 3 [1105, 1, 0]).pc)
    ∧ ready (boot 8 [2006, 3, 4, 0, 0]) = true
      ∧ (boot 8 [2006, 3, 4, 0, 0]).pc.toInt + 3 ≤ (boot 8 [2006, 3, 4, 0, 0]).cfg.memCap
      ∧ decode (wordsAt (boot 8 [2006, 3, 4, 0, 0]) 0 3) = .ok (.jf (.pos 3) (.rel 4), [])
      ∧ readable (.pos 3) (boot 8 [2006, 3, 4, 0, 0]) = true ∧ readable (.rel 4) (boot 8 [2006, 3, 4, 0, 0]) = true
      ∧ operandValue (.pos 3) (boot 8 [2006, 3, 4, 0, 0]) = 0
      ∧ operandValue (.rel 4) (boot 8 [2006, 3, 4, 0, 0]) = (boot 8 [2006, 3, 4, 0, 0]).pc := by decide

/-- The greatest rb. -/
theorem witness_ArbAddsToTheRelativeBase :
    readable ⟨.immediate, maxWord⟩ sample = true
      ∧ inRange64 (sample.rb.toInt + (operandValue ⟨.immediate, maxWord⟩ sample).toInt) = true := by decide

theorem witness_ArbOverflowIsLatched :
    readable (.imm (-1)) { sample with rb := minWord } = true
      ∧ inRange64 (({ sample with rb := minWord } : State).rb.toInt
          + (operandValue (.imm (-1)) { sample with rb := minWord }).toInt) = false := by decide

/-- Addresses -1 and MEM_CAP, and a readable one before each. -/
theorem witness_StoringOperandErrorsInOrder :
    readable (.pos (-1)) sample = false ∧ readable (.pos 8) sample = false ∧ readable (.pos 7) sample = true
      ∧ (Param.pos 8).mode ≠ .immediate ∧ writable (.pos 8) sample = false ∧ writable (.rel (-1)) sample = false := by
  decide

theorem witness_ReadingOperandErrorsInOrder :
    outFull sample = false ∧ readable (.rel (-1)) sample = false ∧ readable (.imm 0) sample = true
      ∧ readable (.pos 8) sample = false := by decide

/-- ARB with an unreadable operand while the output queue is full. -/
theorem witness_ReadingOperandErrorsInOrder_full :
    outFull { sample with cfg := ⟨8, .inf, .words 1⟩, outQ := [1] } = true
      ∧ Instr.arb (.pos 8) ≠ .output (.pos 8)
      ∧ readable (.pos 8) { sample with cfg := ⟨8, .inf, .words 1⟩, outQ := [1] } = false := by decide

theorem witness_InputErrorConsumesNothing :
    ({ sample with inQ := [5] } : State).inQ ≠ [] ∧ (Param.rel (-1)).mode ≠ .immediate
      ∧ writable (.rel (-1)) { sample with inQ := [5] } = false := by decide

theorem witness_LatchRecordsTheExactAddress :
    inRange64 (-2 ^ 63) = true ∧ inRange64 (2 ^ 63 - 1) = true ∧ inRange64 (2 ^ 63) = false := by decide

theorem witness_StoringInstructionsFrame :
    exec (.lt (.imm 1) (.imm 2) (.pos 7)) sample
      = .next { sample with mem := sample.mem.write 7 1, pc := 4 } := by rfl

theorem witness_InputFrame :
    exec (.input (.pos 7)) { sample with inQ := [6] } = .next { sample with mem := sample.mem.write 7 6, pc := 2 } := by
  rfl

theorem witness_NonStoringInstructionsFrame :
    exec (.arb (.imm 3)) sample = .next { sample with rb := 3, pc := 2 } := by rfl

theorem witness_FatalStepChangesOnlyLatchAndLength :
    step (boot 8 []) = .next { boot 8 [] with memLen := 1, fault := ⟨.invalidOpcode, 0, 0⟩ }
      ∧ (boot 8 []).fault.kind = .none := ⟨by rfl, by decide⟩

theorem witness_BlockedStepChangesOnlyStateAndLength_input :
    stepReply (boot 8 [3]) = .next (.blocked .noInput, { boot 8 [3] with memLen := 2, state := .waitingForInput }) := by
  rfl

theorem witness_BlockedStepChangesOnlyStateAndLength_output :
    stepReply { boot 8 [4] with cfg := ⟨8, .inf, .words 1⟩, outQ := [1] }
      = .next (.blocked .outputFull, { boot 8 [4] with cfg := ⟨8, .inf, .words 1⟩, outQ := [1], memLen := 2 }) := by rfl

theorem witness_StepResponseTellsTheOutcome : ready (boot 8 [99]) = true := by decide

theorem witness_MemoryNeverShrinks :
    transact 0 (.memWrite 7 1) (boot 8 [99]) = some (.next (.ok, { boot 8 [99] with mem := [(0, 99), (7, 1)], memLen := 8 })) := by
  rfl

theorem witness_StoppedIsTerminal :
    (stepped (boot 8 [99])).state = .stopped ∧ Transaction.run.isLoad = false
      ∧ transact 5 .run (stepped (boot 8 [99])) = some (.next (.stoppedError, stepped (boot 8 [99]))) :=
  ⟨by decide, by decide, by rfl⟩

theorem witness_StepKeepsTheInvariant :
    sample.inv = true ∧ step sample = .next { sample with mem := sample.mem.write 7 3, pc := 4 } :=
  ⟨by decide, by rfl⟩

theorem witness_ReachableStatesMeetTheInvariant : Reachable (boot 8 [99]) :=
  .load { State.reset with cfg := ⟨8, .inf, .inf⟩ } _ [99] (by decide) (by rfl)

/-- The program of R68: its first instruction writes the halt word it runs next. -/
theorem witness_StoreIsSeenByTheNextFetch :
    (boot 5 [1101, 100, -1, 4, 0]).mem.wf = true ∧ (boot 5 [1101, 100, -1, 4, 0]).cfg.legal = true
      ∧ ready (boot 5 [1101, 100, -1, 4, 0]) = true
      ∧ (boot 5 [1101, 100, -1, 4, 0]).pc.toInt + 4 < (boot 5 [1101, 100, -1, 4, 0]).cfg.memCap
      ∧ writable (.pos 4) (boot 5 [1101, 100, -1, 4, 0]) = true
      ∧ (destination (.pos 4) (boot 5 [1101, 100, -1, 4, 0]) : Int) = (boot 5 [1101, 100, -1, 4, 0]).pc.toInt + 4
      ∧ (operandValue (.imm 100) (boot 5 [1101, 100, -1, 4, 0])).toInt
          + (operandValue (.imm (-1)) (boot 5 [1101, 100, -1, 4, 0])).toInt = 99 := by decide

/-- A snapshot that just fits. -/
theorem witness_LoadSetsEveryElement : [104, 5, (99 : Word)].length ≤ (boot 3 []).cfg.memCap := by decide

/-- Just fits, and just does not (V-IO-11). -/
theorem witness_AddInputsAppendsAllOrNone :
    ({ sample with cfg := ⟨8, .words 2, .inf⟩ } : State).cfg.inDepth = .words 2 ∧ sample.cfg.inDepth = .inf
      ∧ sample.inQ.length + [1, (2 : Word)].length ≤ 2 ∧ 2 < sample.inQ.length + [1, 2, (3 : Word)].length := by decide

theorem witness_DrainOutputsReturnsThemAll : (stepped (boot 8 [0])).loaded = true := by decide

/-- The addresses -1, MEM_CAP, MEM_CAP - 1, the memory's length and the one below it. -/
theorem witness_HostMemoryPort :
    (boot 8 [99]).loaded = true ∧ (boot 8 [99]).inv = true ∧ (boot 8 [99]).memLen = 1
      ∧ hostRead (-1) (boot 8 [99]) = (.addrError .invalidAddress (-1), boot 8 [99])
      ∧ hostRead 8 (boot 8 [99]) = (.addrError .capacityExceeded 8, boot 8 [99])
      ∧ hostRead 7 (boot 8 [99]) = (.value 0, boot 8 [99]) ∧ hostRead 1 (boot 8 [99]) = (.value 0, boot 8 [99])
      ∧ hostRead 0 (boot 8 [99]) = (.value 99, boot 8 [99]) := by decide

theorem witness_StatusAndIsRunningShowTheInstance :
    (stepped (boot 8 [0])).loaded = true ∧ (stepped (boot 8 [0])).fault.kind = .invalidOpcode := by decide

theorem witness_RunUntilOutputReturnsABufferedValue :
    (stepped { boot 8 [99] with outQ := [1, 2] }).loaded = true
      ∧ (stepped { boot 8 [99] with outQ := [1, 2] }).fault.kind = .none
      ∧ (stepped { boot 8 [99] with outQ := [1, 2] }).outQ = 1 :: [2] := by decide

theorem witness_RunUntilOutputNeverFindsOutputFull : (⟨8, .inf, .words 1⟩ : Config).legal = true := by decide

theorem witness_RunEndsAsItSays_halted : run 1 (boot 8 [99]) = some (.next (.halted, { boot 8 [99] with pc := 1, state := .stopped })) := by
  rfl

theorem witness_RunEndsAsItSays_blocked :
    run 1 (boot 8 [3, 0]) = some (.next (.blocked .noInput, { boot 8 [3, 0] with state := .waitingForInput })) := by rfl

theorem witness_RunEndsAsItSays_outputFull :
    run 1 { boot 8 [104, 2] with cfg := ⟨8, .inf, .words 1⟩, outQ := [1] }
      = some (.next (.blocked .outputFull, { boot 8 [104, 2] with cfg := ⟨8, .inf, .words 1⟩, outQ := [1] })) := by rfl

theorem witness_RunEndsAsItSays_noMoreOutput :
    runUntilOutput 1 (boot 8 [99]) = some (.next (.noMoreOutput, { boot 8 [99] with pc := 1, state := .stopped })) := by rfl

theorem witness_RunEndsAsItSays_value :
    runUntilOutput 1 (boot 8 [104, 2]) = some (.next (.value 2, { boot 8 [104, 2] with pc := 2 })) := by rfl

theorem witness_RunEndsAsItSays_stopped :
    (stepped (boot 8 [99])).loaded = true ∧ (stepped (boot 8 [99])).fault.kind = .none
      ∧ (stepped (boot 8 [99])).state = .stopped ∧ (stepped (boot 8 [99])).outQ = [] := by decide

/-- Log entry 19: the state that 104,1,99,104,2 ends in with OUT_DEPTH 1 is final and not blocked on output. -/
theorem test_final_is_not_blocked_on_output :
    (stepped (stepped { boot 8 [104, 1, 99, 104, 2] with cfg := ⟨8, .inf, .words 1⟩ })).final = true
      ∧ (stepped (stepped { boot 8 [104, 1, 99, 104, 2] with cfg := ⟨8, .inf, .words 1⟩ })).blockedOnOutput = false := by
  decide

theorem witness_RunEndsAsItSays_fatal :
    run 1 (boot 8 [0]) = some (.next (.fatal ⟨.invalidOpcode, 0, 0⟩, { boot 8 [0] with fault := ⟨.invalidOpcode, 0, 0⟩ })) := by
  rfl

/-- The clauses that say that they answer: one step that progresses (a jump to 3), then a step that stops, blocks, fails
or leaves an output. -/
theorem witness_RunEndsAsItSays_answers :
    (∃ u t, ProgressesTo 1 (boot 8 [1105, 1, 3, 99]) u ∧ u.outQ = []
        ∧ stepReply u = .next (.progressed .stopped, t) ∧ t.outQ = [])
      ∧ (∃ u t, ProgressesTo 1 (boot 8 [1105, 1, 3, 3, 0]) u ∧ u.outQ = [] ∧ stepReply u = .next (.blocked .noInput, t))
      ∧ (∃ u f t, ProgressesTo 1 (boot 8 [1105, 1, 3, 0]) u ∧ u.outQ = [] ∧ stepReply u = .next (.fatal f, t))
      ∧ ∃ u t, ProgressesTo 1 (boot 8 [1105, 1, 3, 104, 2]) u ∧ u.outQ = []
        ∧ stepReply u = .next (.progressed .running, t) ∧ t.outQ = 2 :: [] :=
  ⟨⟨_, _, ⟨_, rfl, rfl⟩, rfl, rfl, rfl⟩, ⟨_, _, ⟨_, rfl, rfl⟩, rfl, rfl⟩, ⟨_, _, _, ⟨_, rfl, rfl⟩, rfl, rfl⟩,
    _, _, ⟨_, rfl, rfl⟩, rfl, rfl, rfl⟩

theorem witness_InstancesShareNothing :
    transactOn 0 1 .isRunning [boot 8 [99], boot 8 [0]] = some (.next (.isRunning true, [boot 8 [99], boot 8 [0]])) := by
  rfl

end Sys2Proof.Tests
end

section
/-! The scope family (00_scope.md): every step keeps the invariant, memory never shrinks but by LOAD, and
RUN_UNTIL_OUTPUT never finds the output queue full. The three ends of a meaning (`Raised`, `Blocked`, `Committed`) and
the loops of RUN and RUN_UNTIL_OUTPUT are each read once, and the three statements are assembled from them. -/

namespace Sys2Proof.Machine

/-! ### The FIFO depths (R12, R31) -/

/-- A queue that has become shorter still fits. -/
theorem Depth.fits_of_le {d : Depth} {m n : Nat} (hmn : m ≤ n) (h : d.fits n = true) : d.fits m = true := by
  cases d with
  | inf => rfl
  | words k =>
    have hk : n ≤ k := by simpa [Depth.fits] using h
    simpa [Depth.fits] using hmn.trans hk

/-- A queue within its depth that is not full has room for one more value (R131, R203). -/
theorem outDepth_fits_succ {s : State} (hfit : s.cfg.outDepth.fits s.outQ.length = true) (hroom : outFull s = false) :
    s.cfg.outDepth.fits (s.outQ.length + 1) = true := by
  unfold outFull at hroom
  cases hd : s.cfg.outDepth with
  | inf => rfl
  | words d =>
    simp only [hd, Depth.fits, decide_eq_true_eq, decide_eq_false_iff_not] at hfit hroom ⊢
    omega

/-- With legal parameters an empty output queue is not full: a finite OUT_DEPTH is positive (R12). -/
theorem outFull_eq_false_of_empty {s : State} (hlegal : s.cfg.legal = true) (hq : s.outQ = []) : outFull s = false := by
  unfold outFull
  cases hd : s.cfg.outDepth with
  | inf => rfl
  | words d =>
    have hpos : 0 < d := by simpa [hd, Depth.legal] using (Bool.and_eq_true_iff.1 hlegal).2
    simp [hq, hpos.ne]

/-! ### The invariant -/

/-- `State.inv`, with a name for each of its parts (`State.inv_iff`). -/
structure Invariant (s : State) : Prop where
  legal : s.cfg.legal = true
  wf : s.mem.wf = true
  below : ∀ c ∈ s.mem, c.1 < s.memLen
  len_le : s.memLen ≤ s.cfg.memCap
  inQ : s.cfg.inDepth.fits s.inQ.length = true
  outQ : s.cfg.outDepth.fits s.outQ.length = true
  clear : s.fault.kind = .none → s.fault = FaultRecord.clear
  stopped : s.state = .stopped → s.fault.kind = .none

theorem State.inv_iff (s : State) : s.inv = true ↔ Invariant s := by
  have key : s.inv = true ↔ s.cfg.legal = true ∧ s.mem.wf = true ∧ (∀ c ∈ s.mem, c.1 < s.memLen)
      ∧ s.memLen ≤ s.cfg.memCap ∧ s.cfg.inDepth.fits s.inQ.length = true ∧ s.cfg.outDepth.fits s.outQ.length = true
      ∧ (s.fault.kind = .none → s.fault = FaultRecord.clear) ∧ (s.state = .stopped → s.fault.kind = .none) := by
    simp [State.inv, and_assoc, imp_iff_not_or]
  rw [key]
  exact ⟨fun ⟨h1, h2, h3, h4, h5, h6, h7, h8⟩ => ⟨h1, h2, h3, h4, h5, h6, h7, h8⟩,
    fun ⟨h1, h2, h3, h4, h5, h6, h7, h8⟩ => ⟨h1, h2, h3, h4, h5, h6, h7, h8⟩⟩

namespace Invariant

variable {s t : State}

/-- Growth up to MEM_CAP keeps the invariant (R30, R54). -/
theorem grow (hs : Invariant s) {L : Nat} (hle : s.memLen ≤ L) (hcap : L ≤ max s.memLen s.cfg.memCap) :
    Invariant { s with memLen := L } :=
  { hs with
    below := fun c hc => (hs.below c hc).trans_le hle
    len_le := hcap.trans (max_le hs.len_le le_rfl) }

/-- A fatal error keeps it, where the state is not Stopped: the latch then holds an error (R213, R240). -/
theorem raised (hs : Invariant s) (hrun : s.state ≠ .stopped) (h : Raised s t) : Invariant t := by
  obtain ⟨k, a, w, L, hk, hle, hcap, rfl⟩ := h.eq
  exact { hs.grow hle hcap with
    clear := fun hnone => absurd hnone hk
    stopped := fun hst => absurd hst hrun }

/-- A block keeps it: at most the state register changes, and not to Stopped. -/
theorem blocked (hs : Invariant s) (h : Blocked s t) : Invariant t := by
  cases h with
  | noInput _ => exact { hs with stopped := fun hst => nomatch hst }
  | outputFull _ => exact hs

/-- A commit with no fault latched keeps it: the one store lies below the new length, and the one value
pushed had room. -/
theorem committed (hs : Invariant s) (hnone : s.fault.kind = .none) (h : Committed s t) : Invariant t := by
  have hbelow : ∀ c ∈ s.mem, c.1 < t.memLen := fun c hc => (hs.below c hc).trans_le h.len_le
  have hmem : t.mem.wf = true ∧ ∀ c ∈ t.mem, c.1 < t.memLen := by
    rcases h.mem with hm | ⟨d, v, hd, hm⟩
    · rw [hm]
      exact ⟨hs.wf, hbelow⟩
    · rw [hm]
      refine ⟨Memory.wf_write _ _ _ hs.wf, fun c hc => ?_⟩
      rcases Memory.mem_write _ _ _ _ hc with hc | rfl
      · exact hbelow c hc
      · exact hd
  have hin : t.inQ.length ≤ s.inQ.length := by
    rcases h.inQ with hq | ⟨v, hq⟩ <;> simp [hq]
  have hout : s.cfg.outDepth.fits t.outQ.length = true := by
    rcases h.outQ with hq | ⟨hroom, v, hq⟩
    · rw [hq]
      exact hs.outQ
    · simpa [hq] using outDepth_fits_succ hs.outQ hroom
  exact {
    legal := h.cfg ▸ hs.legal
    wf := hmem.1
    below := hmem.2
    len_le := h.cfg ▸ h.len_cap.trans (max_le hs.len_le le_rfl)
    inQ := h.cfg ▸ Depth.fits_of_le hin hs.inQ
    outQ := h.cfg ▸ hout
    clear := fun _ => h.fault ▸ hs.clear hnone
    stopped := fun _ => h.fault ▸ hnone }

/-- Every end of a meaning keeps it, from a state a step executes an instruction in. -/
theorem execEnd (hs : Invariant s) (hready : ready s = true) (h : ExecEnd s t) : Invariant t := by
  obtain ⟨_, hnone, hrun⟩ := (ready_iff s).1 hready
  rcases h with h | h | h
  · exact hs.raised hrun h
  · exact hs.blocked h
  · exact hs.committed hnone h

/-- Every step keeps it. -/
theorem step (hs : Invariant s) (h : step s = .next t) : Invariant t := by
  rcases step_cases s with ⟨_, hidle⟩ | ⟨hready, u, hfatal, hu⟩ | ⟨hready, i, L, hle, hcap, _, hexec⟩
  · cases hidle.symm.trans h
    exact hs
  · cases hfatal.symm.trans h
    exact hs.execEnd hready (.inl hu)
  · exact (hs.grow hle hcap).execEnd hready (exec_cases (hexec.symm.trans h))

end Invariant

/-- Settles O49: the front end only grows memory, and each of the three ends of a meaning keeps the invariant. -/
theorem stepKeepsTheInvariant : Obligations.StepKeepsTheInvariant := by
  intro s t hs h
  rw [State.inv_iff] at hs ⊢
  exact hs.step h

/-! ### Growth (R12, R54) -/

/-- From `s` to `t` the parameters stay and memory does not become shorter. -/
structure Grows (s t : State) : Prop where
  cfg : t.cfg = s.cfg
  len_le : s.memLen ≤ t.memLen

namespace Grows

variable {s t u : State}

theorem refl (s : State) : Grows s s := ⟨rfl, le_rfl⟩

theorem trans (h : Grows s t) (h' : Grows t u) : Grows s u := ⟨h'.cfg.trans h.cfg, h.len_le.trans h'.len_le⟩

theorem of_execEnd (h : ExecEnd s t) : Grows s t := by
  rcases h with h | h | h
  · obtain ⟨k, a, w, L, _, hle, _, rfl⟩ := h.eq
    exact ⟨rfl, hle⟩
  · cases h with
    | noInput _ => exact ⟨rfl, le_rfl⟩
    | outputFull _ => exact refl s
  · exact ⟨h.cfg, h.len_le⟩

theorem of_step (h : step s = .next t) : Grows s t := by
  rcases step_cases s with ⟨_, hidle⟩ | ⟨_, u, hfatal, hu⟩ | ⟨_, i, L, hle, _, _, hexec⟩
  · cases hidle.symm.trans h
    exact refl s
  · cases hfatal.symm.trans h
    exact of_execEnd (.inl hu)
  · exact trans (t := { s with memLen := L }) ⟨rfl, hle⟩ (of_execEnd (exec_cases (hexec.symm.trans h)))

end Grows

/-! ### Runs of steps -/

/-- What every step keeps, a run of steps keeps. -/
theorem StepsTo.keeps {P : State → Prop} (hstep : ∀ s t, P s → step s = .next t → P t) {n : Nat} {s t : State}
    (h : StepsTo n s t) (hs : P s) : P t := by
  induction n generalizing s with
  | zero =>
    cases h
    exact hs
  | succ n ih =>
    obtain ⟨u, hu, htail⟩ := h
    exact ih htail (hstep s u hs hu)

theorem StepsTo.grows {n : Nat} {s t : State} (h : StepsTo n s t) : Grows s t :=
  h.keeps (P := Grows s) (fun _ _ hu hstep => hu.trans (.of_step hstep)) (.refl s)

theorem StepsTo.one {s t : State} (h : step s = .next t) : StepsTo 1 s t := ⟨t, h, rfl⟩

/-- STEP leaves the state of `step`, whatever it responds (R191). -/
theorem step_of_stepReply {s t : State} {r : Response} (h : stepReply s = .next (r, t)) : step s = .next t := by
  unfold stepReply at h
  cases hs : step s with
  | next u =>
    simp only [hs, Host.Outcome.next.injEq, Prod.mk.injEq] at h
    rw [h.2]
  | fault f => cases f
  | refused f => simp [hs] at h

/-- STEP answers: a step always has a next state. -/
theorem exists_stepReply (s : State) : ∃ q u, stepReply s = .next (q, u) := by
  rcases step_cases s with ⟨_, h⟩ | ⟨_, u, h, _⟩ | ⟨_, i, L, _, _, _, h⟩
  · exact ⟨_, _, stepReply_eq h⟩
  · exact ⟨_, _, stepReply_eq h⟩
  · obtain ⟨u, hu, _⟩ := exec_ends i { s with memLen := L }
    exact ⟨_, _, stepReply_eq (h.trans hu)⟩

/-! ### RUN (R192) -/

/-- How RUN's loop answers: with the response of its step, which is `Halted` for a step that stops, or as the rest of
the loop does after a step that leaves a state that is not Stopped. -/
theorem runLoop_succ_cases {fuel : Nat} {s t : State} {r : Response}
    (h : runLoop (fuel + 1) s = some (.next (r, t))) :
    (stepReply s = .next (.progressed .stopped, t) ∧ r = .halted) ∨
    (∃ vm u, vm ≠ .stopped ∧ stepReply s = .next (.progressed vm, u) ∧ runLoop fuel u = some (.next (r, t))) ∨
    ((∀ vm, r ≠ .progressed vm) ∧ stepReply s = .next (r, t)) := by
  obtain ⟨q, u, hq⟩ := exists_stepReply s
  simp only [runLoop, hq] at h
  split at h
  case h_1 heq => cases heq; cases h; exact .inl ⟨hq, rfl⟩
  case h_2 heq => cases heq; exact .inr (.inl ⟨.running, u, by simp, hq, h⟩)
  case h_3 heq => cases heq; exact .inr (.inl ⟨.waitingForInput, u, by simp, hq, h⟩)
  case h_4 hstop hrun hwait heq =>
    cases heq; cases h
    refine .inr (.inr ⟨fun vm hvm => ?_, hq⟩)
    subst hvm
    cases vm with
    | running => exact hrun rfl
    | waitingForInput => exact hwait rfl
    | stopped => exact hstop rfl
  case h_5 heq => cases heq
  case h_6 heq => cases heq

/-- Where RUN's loop ends, steps lead. -/
theorem runLoop_stepsTo {fuel : Nat} {s t : State} {r : Response} (h : runLoop fuel s = some (.next (r, t))) :
    ∃ n, StepsTo n s t := by
  induction fuel generalizing s with
  | zero => cases h
  | succ fuel ih =>
    rcases runLoop_succ_cases h with ⟨hs, _⟩ | ⟨_, u, _, hs, hrest⟩ | ⟨_, hs⟩
    · exact ⟨1, .one (step_of_stepReply hs)⟩
    · obtain ⟨n, hn⟩ := ih hrest
      exact ⟨n + 1, u, step_of_stepReply hs, hn⟩
    · exact ⟨1, .one (step_of_stepReply hs)⟩

/-- How RUN answers: one of the gate's responses, or as its loop does. -/
theorem run_cases {fuel : Nat} {s t : State} {r : Response} (h : run fuel s = some (.next (r, t))) :
    (ready s = false ∧ t = s ∧ (r = .notLoaded ∨ r = .fatal s.fault ∨ r = .stoppedError)) ∨
    (ready s = true ∧ runLoop fuel s = some (.next (r, t))) := by
  unfold run at h
  split at h
  · cases h; exact .inl ⟨by simp_all [ready], rfl, .inl rfl⟩
  · split at h
    · cases h; exact .inl ⟨by simp_all [ready], rfl, .inr (.inl rfl)⟩
    · split at h
      · cases h; exact .inl ⟨by simp_all [ready], rfl, .inr (.inr rfl)⟩
      · exact .inr ⟨by simp_all [ready], h⟩

/-! ### RUN_UNTIL_OUTPUT (R194 to R197) -/

/-- How RUN_UNTIL_OUTPUT's loop answers: with the output its step leaves, with `NoMoreOutput`, as the rest of the loop
does, or with a response of its step that is no progress. -/
theorem untilOutputLoop_succ_cases {fuel : Nat} {s t : State} {r : Response}
    (h : untilOutputLoop (fuel + 1) s = some (.next (r, t))) :
    (∃ vm u v rest, stepReply s = .next (.progressed vm, u) ∧ u.outQ = v :: rest ∧ r = .value v ∧ t = u.outPopFront) ∨
    (stepReply s = .next (.progressed .stopped, t) ∧ t.outQ = [] ∧ r = .noMoreOutput) ∨
    (∃ vm u, vm ≠ .stopped ∧ stepReply s = .next (.progressed vm, u) ∧ u.outQ = [] ∧
      untilOutputLoop fuel u = some (.next (r, t))) ∨
    ((∀ vm, r ≠ .progressed vm) ∧ stepReply s = .next (r, t)) := by
  obtain ⟨q, u, hq⟩ := exists_stepReply s
  simp only [untilOutputLoop, hq] at h
  split at h
  case h_1 vm u heq =>
    cases heq
    split at h
    · next v rest hout => cases h; exact .inl ⟨vm, u, v, rest, hq, hout, rfl, rfl⟩
    · next hout =>
      split at h
      · next hst => cases h; exact .inr (.inl ⟨hst ▸ hq, hout, rfl⟩)
      · next hst => exact .inr (.inr (.inl ⟨vm, u, hst, hq, hout, h⟩))
  case h_2 hprog heq => cases heq; cases h; exact .inr (.inr (.inr ⟨hprog, hq⟩))
  case h_3 heq => cases heq
  case h_4 heq => cases heq

/-- Where RUN_UNTIL_OUTPUT's loop ends, steps lead, but for the value it hands over. -/
theorem untilOutputLoop_stepsTo {fuel : Nat} {s t : State} {r : Response}
    (h : untilOutputLoop fuel s = some (.next (r, t))) :
    ∃ n u, StepsTo n s u ∧ (t = u ∨ t = u.outPopFront) := by
  induction fuel generalizing s with
  | zero => cases h
  | succ fuel ih =>
    rcases untilOutputLoop_succ_cases h with
      ⟨_, u, _, _, hs, _, _, ht⟩ | ⟨hs, _, _⟩ | ⟨_, u, _, hs, _, hrest⟩ | ⟨_, hs⟩
    · exact ⟨1, u, .one (step_of_stepReply hs), .inr ht⟩
    · exact ⟨1, t, .one (step_of_stepReply hs), .inl rfl⟩
    · obtain ⟨n, v, hn, ht⟩ := ih hrest
      exact ⟨n + 1, v, ⟨u, step_of_stepReply hs, hn⟩, ht⟩
    · exact ⟨1, t, .one (step_of_stepReply hs), .inl rfl⟩

/-- How RUN_UNTIL_OUTPUT answers: one of the gate's responses, a buffered value, or, with no output queued, as its loop
does. -/
theorem runUntilOutput_cases {fuel : Nat} {s t : State} {r : Response}
    (h : runUntilOutput fuel s = some (.next (r, t))) :
    (t = s ∧ (r = .notLoaded ∨ r = .fatal s.fault ∨ r = .stoppedError)) ∨
    (∃ v rest, s.outQ = v :: rest ∧ r = .value v ∧ t = s.outPopFront) ∨
    (ready s = true ∧ s.outQ = [] ∧ untilOutputLoop fuel s = some (.next (r, t))) := by
  unfold runUntilOutput at h
  split at h
  · cases h; exact .inl ⟨rfl, .inl rfl⟩
  · split at h
    · cases h; exact .inl ⟨rfl, .inr (.inl rfl)⟩
    · split at h
      · next v rest hout => cases h; exact .inr (.inl ⟨v, rest, hout, rfl, rfl⟩)
      · next hout =>
        split at h
        · cases h; exact .inl ⟨rfl, .inr (.inr rfl)⟩
        · exact .inr (.inr ⟨by simp_all [ready], hout, h⟩)

/-- STEP does not answer `Blocked(OutputFull)` where the output queue is empty and the parameters are legal. -/
theorem stepReply_ne_outputFull {s t : State} (hlegal : s.cfg.legal = true) (hq : s.outQ = []) :
    stepReply s ≠ .next (.blocked .outputFull, t) := by
  intro h
  rcases stepReply_cases s with ⟨_, r, hr, hs⟩ | ⟨_, u, _, hs⟩ | ⟨_, _, i, L, _, _, _, _, hs⟩ | ⟨_, hfull, _⟩
    | ⟨_, u, _, hs⟩
  · cases hs.symm.trans h
    rcases hr with hr | ⟨hr, _⟩ | hr <;> cases hr
  · cases hs.symm.trans h
  · cases hs.symm.trans h
  · rw [outFull_eq_false_of_empty hlegal hq] at hfull
    cases hfull
  · cases hs.symm.trans h

/-- The loop steps only while the output queue is empty, so no step of it finds the queue full. -/
theorem untilOutputLoop_ne_outputFull {fuel : Nat} {s t : State} (hlegal : s.cfg.legal = true) (hq : s.outQ = []) :
    untilOutputLoop fuel s ≠ some (.next (.blocked .outputFull, t)) := by
  intro h
  induction fuel generalizing s with
  | zero => cases h
  | succ fuel ih =>
    rcases untilOutputLoop_succ_cases h with
      ⟨_, _, _, _, _, _, hr, _⟩ | ⟨_, _, hr⟩ | ⟨_, u, _, hs, hout, hrest⟩ | ⟨_, hs⟩
    · cases hr
    · cases hr
    · have hcfg := (Grows.of_step (step_of_stepReply hs)).cfg
      exact ih (hcfg ▸ hlegal) hout hrest
    · exact stepReply_ne_outputFull hlegal hq hs

/-- Settles O58: by induction on the fuel, RUN_UNTIL_OUTPUT steps only with no output queued, and a legal OUT_DEPTH has
room then. -/
theorem runUntilOutputNeverFindsOutputFull : Obligations.RunUntilOutputNeverFindsOutputFull := by
  intro s t fuel hlegal h
  rcases runUntilOutput_cases h with ⟨_, hr⟩ | ⟨_, _, _, hr, _⟩ | ⟨_, hq, hloop⟩
  · rcases hr with hr | hr | hr <;> cases hr
  · cases hr
  · exact untilOutputLoop_ne_outputFull hlegal hq hloop

/-! ### Transactions -/

/-- LOAD keeps the parameters (R12, R270). -/
@[simp] theorem load_cfg (snapshot : List Word) (s : State) : (load snapshot s).2.cfg = s.cfg := by
  unfold load
  split <;> rfl

theorem addInputs_grows (values : List Word) (s : State) : Grows s (addInputs values s).2 := by
  unfold addInputs
  split
  · exact ⟨rfl, le_rfl⟩
  · exact .refl s

theorem hostRead_grows (a : Int) (s : State) : Grows s (hostRead a s).2 := by
  rcases hostRead_cases s a with ⟨_, h⟩ | ⟨_, h⟩ <;> rw [h] <;> exact .refl s

theorem hostWrite_grows (a : Int) (v : Word) (s : State) : Grows s (hostWrite a v s).2 := by
  rcases hostWrite_cases s a v with ⟨_, h⟩ | ⟨_, h⟩ <;> rw [h]
  · exact ⟨rfl, le_max_left _ _⟩
  · exact .refl s

theorem run_grows {fuel : Nat} {s t : State} {r : Response} (h : run fuel s = some (.next (r, t))) : Grows s t := by
  rcases run_cases h with ⟨_, rfl, _⟩ | ⟨_, hloop⟩
  · exact .refl t
  · obtain ⟨n, hn⟩ := runLoop_stepsTo hloop
    exact hn.grows

theorem runUntilOutput_grows {fuel : Nat} {s t : State} {r : Response}
    (h : runUntilOutput fuel s = some (.next (r, t))) : Grows s t := by
  rcases runUntilOutput_cases h with ⟨rfl, _⟩ | ⟨_, _, _, _, rfl⟩ | ⟨_, _, hloop⟩
  · exact .refl t
  · exact ⟨rfl, le_rfl⟩
  · obtain ⟨n, u, hn, rfl | rfl⟩ := untilOutputLoop_stepsTo hloop
    · exact hn.grows
    · exact hn.grows.trans ⟨rfl, le_rfl⟩

/-- How a transaction answers: `NotLoaded` with nothing changed, or as where a program is loaded (R212). -/
theorem transact_cases {fuel : Nat} {tr : Transaction} {s t : State} {r : Response}
    (h : transact fuel tr s = some (.next (r, t))) :
    (tr.isLoad = false ∧ r = .notLoaded ∧ t = s) ∨ loadedReply fuel tr s = some (.next (r, t)) := by
  unfold transact at h
  split at h
  · exact .inr h
  · next hgate =>
    cases h
    exact .inl ⟨by simp_all, rfl, rfl⟩

/-- The state a transaction without a loop leaves. -/
theorem state_of_reply {p : Response × State} {r : Response} {t : State}
    (h : some (.next p : Reply) = some (.next (r, t))) : p.2 = t := by
  cases h
  rfl

theorem Transaction.isLoad_iff (tr : Transaction) : tr.isLoad = true ↔ ∃ snapshot, tr = .load snapshot := by
  cases tr <;> simp [Transaction.isLoad]

/-- Every transaction but LOAD keeps the parameters and the memory's length or more (R12, R54). -/
theorem loadedReply_grows {fuel : Nat} {tr : Transaction} {s t : State} {r : Response} (hnot : tr.isLoad = false)
    (h : loadedReply fuel tr s = some (.next (r, t))) : Grows s t := by
  cases tr with
  | load snapshot => cases hnot
  | step => exact .of_step (step_of_stepReply (Option.some.inj h))
  | run => exact run_grows h
  | runUntilOutput => exact runUntilOutput_grows h
  | addInputs values => exact state_of_reply h ▸ addInputs_grows values s
  | drainOutputs => exact state_of_reply h ▸ ⟨rfl, le_rfl⟩
  | isRunning => exact state_of_reply h ▸ .refl s
  | memRead a => exact state_of_reply h ▸ hostRead_grows a s
  | memWrite a v => exact state_of_reply h ▸ hostWrite_grows a v s
  | status => exact state_of_reply h ▸ .refl s

/-- Settles O46: LOAD keeps the parameters, and every other transaction grows memory or leaves its length. -/
theorem memoryNeverShrinks : Obligations.MemoryNeverShrinks := by
  intro s t fuel tr r h
  rcases transact_cases h with ⟨_, _, rfl⟩ | hreply
  · exact ⟨rfl, fun _ => le_rfl⟩
  · cases hload : tr.isLoad with
    | false =>
      have hgrows := loadedReply_grows hload hreply
      exact ⟨hgrows.cfg, fun _ => hgrows.len_le⟩
    | true =>
      obtain ⟨snapshot, rfl⟩ := (Transaction.isLoad_iff tr).1 hload
      exact ⟨state_of_reply hreply ▸ load_cfg snapshot s, fun hnot => nomatch hnot⟩

end Sys2Proof.Machine
end

section
/-! The state family (10_state.md). What the step and the host's own accesses keep, every transaction but LOAD keeps
(`Stable`), from which the invariant of every reachable state and the terminality of Stopped follow. The frames are read
off the ends of the storing and of the other instructions (`StoreEnd`, `NonStoreEnd`). -/

namespace Sys2Proof.Machine

/-! ### What every transaction but LOAD keeps -/

/-- A property kept by a step and by each of the host's own changes: values queued within IN_DEPTH, output handed over,
a word stored below MEM_CAP. -/
structure Stable (P : State → Prop) : Prop where
  ofStep : ∀ s t, P s → step s = .next t → P t
  inPush : ∀ s vs, P s → s.cfg.inDepth.fits (s.inQ.length + vs.length) = true → P (s.inPush vs)
  outPopFront : ∀ s, P s → P s.outPopFront
  outDrainAll : ∀ s, P s → P s.outDrainAll
  storeWord : ∀ s a v, P s → a < s.cfg.memCap → P (s.storeWord a v)

namespace Stable

variable {P : State → Prop} {s t : State} {r : Response} {fuel : Nat}

theorem run (hP : Stable P) (hs : P s) (h : run fuel s = some (.next (r, t))) : P t := by
  rcases run_cases h with ⟨_, rfl, _⟩ | ⟨_, hloop⟩
  · exact hs
  · obtain ⟨n, hn⟩ := runLoop_stepsTo hloop
    exact hn.keeps hP.ofStep hs

theorem runUntilOutput (hP : Stable P) (hs : P s) (h : runUntilOutput fuel s = some (.next (r, t))) : P t := by
  rcases runUntilOutput_cases h with ⟨rfl, _⟩ | ⟨_, _, _, _, rfl⟩ | ⟨_, _, hloop⟩
  · exact hs
  · exact hP.outPopFront s hs
  · obtain ⟨n, u, hn, ht⟩ := untilOutputLoop_stepsTo hloop
    have hu : P u := hn.keeps hP.ofStep hs
    rcases ht with rfl | rfl
    · exact hu
    · exact hP.outPopFront u hu

theorem addInputs (hP : Stable P) (hs : P s) (values : List Word) : P (addInputs values s).2 := by
  unfold Machine.addInputs
  split
  · next hfit => exact hP.inPush s values hs hfit
  · exact hs

theorem hostRead (hs : P s) (a : Int) : P (hostRead a s).2 := by
  rcases hostRead_cases s a with ⟨_, h⟩ | ⟨_, h⟩ <;> rw [h] <;> exact hs

theorem hostWrite (hP : Stable P) (hs : P s) (a : Int) (v : Word) : P (hostWrite a v s).2 := by
  rcases hostWrite_cases s a v with ⟨hok, h⟩ | ⟨_, h⟩ <;> rw [h]
  · exact hP.storeWord s a.toNat v hs (toNat_lt_of_addressOk hok)
  · exact hs

theorem loadedReply {tr : Transaction} (hP : Stable P) (hs : P s) (hnot : tr.isLoad = false)
    (h : loadedReply fuel tr s = some (.next (r, t))) : P t := by
  cases tr with
  | load snapshot => cases hnot
  | step => exact hP.ofStep s t hs (step_of_stepReply (Option.some.inj h))
  | run => exact hP.run hs h
  | runUntilOutput => exact hP.runUntilOutput hs h
  | addInputs values => exact state_of_reply h ▸ hP.addInputs hs values
  | drainOutputs => exact state_of_reply h ▸ hP.outDrainAll s hs
  | isRunning => exact state_of_reply h ▸ hs
  | memRead a => exact state_of_reply h ▸ hostRead hs a
  | memWrite a v => exact state_of_reply h ▸ hP.hostWrite hs a v
  | status => exact state_of_reply h ▸ hs

/-- What is stable, every transaction but LOAD keeps (R181, R212). -/
theorem transact {tr : Transaction} (hP : Stable P) (hs : P s) (hnot : tr.isLoad = false)
    (h : transact fuel tr s = some (.next (r, t))) : P t := by
  rcases transact_cases h with ⟨_, _, rfl⟩ | hreply
  · exact hs
  · exact hP.loadedReply hs hnot hreply

end Stable

/-! ### The invariant of every reachable state (R30, R31, R184, R211, R270) -/

theorem ExecEnd.loaded {s t : State} (h : ExecEnd s t) : t.loaded = s.loaded := by
  rcases h with h | h | h
  · obtain ⟨k, a, w, L, _, _, _, rfl⟩ := h.eq
    rfl
  · cases h <;> rfl
  · exact h.loaded

/-- A step does not change the loaded flag (R32). -/
theorem step_loaded {s t : State} (h : step s = .next t) : t.loaded = s.loaded := by
  rcases step_cases s with ⟨_, hidle⟩ | ⟨_, u, hfatal, hu⟩ | ⟨_, i, L, _, _, _, hexec⟩
  · cases hidle.symm.trans h
    rfl
  · cases hfatal.symm.trans h
    exact ExecEnd.loaded (.inl hu)
  · exact (exec_cases (hexec.symm.trans h)).loaded

/-- LOAD is taken in every state, loaded or not (R212). -/
theorem transact_load (fuel : Nat) (snapshot : List Word) (s : State) :
    transact fuel (.load snapshot) s = some (.next (load snapshot s)) := by
  simp [transact, Transaction.isLoad, loadedReply]

/-- LOAD's two ends: accepted, or refused with nothing changed (R207). -/
theorem load_cases (snapshot : List Word) (s : State) :
    (∃ t, load snapshot s = (.ok, t)) ∨ load snapshot s = (.loadRefused, s) := by
  unfold load
  split
  · exact .inl ⟨_, rfl⟩
  · exact .inr rfl

/-- An empty queue fits every depth. -/
theorem Depth.fits_zero (d : Depth) : d.fits 0 = true := by
  cases d with
  | inf => rfl
  | words k => simp [Depth.fits]

/-- A program is loaded and the invariant holds. -/
structure Sound (s : State) : Prop where
  loaded : s.loaded = true
  invariant : Invariant s

/-- An accepted LOAD leaves a sound state, whatever the state held before (R270). -/
theorem Sound.of_load {snapshot : List Word} {s t : State} (legal : s.cfg.legal = true)
    (h : load snapshot s = (.ok, t)) : Sound t := by
  unfold load at h
  split at h
  · next hfit =>
    cases h
    exact ⟨rfl, {
      legal := legal
      wf := Memory.wf_ofWords snapshot 0
      below := fun c hc => by simpa using (Memory.mem_ofWords snapshot 0 c hc).2
      len_le := hfit
      inQ := Depth.fits_zero _
      outQ := Depth.fits_zero _
      clear := fun _ => rfl
      stopped := fun _ => rfl }⟩
  · cases h

/-- Every step and each of the host's own changes keeps a sound state sound. -/
theorem Sound.stable : Stable Sound where
  ofStep _ _ hs h := ⟨(step_loaded h).trans hs.loaded, hs.invariant.step h⟩
  inPush s vs hs hfit := ⟨hs.loaded, { hs.invariant with inQ := by simpa using hfit }⟩
  outPopFront s hs := ⟨hs.loaded, { hs.invariant with outQ := Depth.fits_of_le (by simp) hs.invariant.outQ }⟩
  outDrainAll s hs := ⟨hs.loaded, { hs.invariant with outQ := Depth.fits_of_le (by simp) hs.invariant.outQ }⟩
  storeWord s a v hs ha := ⟨hs.loaded, { hs.invariant with
    wf := Memory.wf_write _ _ _ hs.invariant.wf
    below := fun c hc => by
      rcases Memory.mem_write _ _ _ _ hc with hc | rfl
      · exact (hs.invariant.below c hc).trans_le (le_max_left _ _)
      · exact Nat.lt_of_lt_of_le (Nat.lt_succ_self a) (le_max_right _ _)
    len_le := max_le hs.invariant.len_le ha }⟩

/-- Every transaction keeps soundness: LOAD by `Sound.of_load` or by changing nothing, the others by `Sound.stable`. -/
theorem Reachable.sound {s : State} (h : Reachable s) : Sound s := by
  induction h with
  | load _ _ _ legal h => exact .of_load legal h
  | transact s t fuel tr r _ h hs =>
    cases hload : tr.isLoad with
    | false => exact Sound.stable.transact hs hload h
    | true =>
      obtain ⟨snapshot, rfl⟩ := (Transaction.isLoad_iff tr).1 hload
      rw [transact_load] at h
      rcases load_cases snapshot s with ⟨u, hu⟩ | hu <;> rw [hu] at h <;> cases h
      · exact .of_load hs.invariant.legal hu
      · exact hs

/-- Settles O50, by induction on the transactions (`Reachable.sound`). -/
theorem reachableStatesMeetTheInvariant : Obligations.ReachableStatesMeetTheInvariant :=
  fun s h => ⟨h.sound.loaded, (State.inv_iff s).2 h.sound.invariant⟩

/-- `State.reset` is what LOAD of the empty snapshot leaves (R275; log entry 4). -/
theorem load_nil_reset : load [] State.reset = (.ok, State.reset) := by
  simp [load, State.reset, Memory.ofWords]

/-- Settles O48: `State.reset` is the state after an accepted LOAD with legal parameters. -/
theorem invariantHoldsAtReset : Obligations.InvariantHoldsAtReset :=
  (State.inv_iff State.reset).2 (Sound.of_load (by decide) load_nil_reset).invariant

/-! ### Stopped is terminal (R26, R172) -/

/-- Stopped, with these registers. -/
def StoppedWith (pc rb : Word) (s : State) : Prop := s.state = .stopped ∧ s.pc = pc ∧ s.rb = rb

/-- A step of a Stopped state changes nothing (R172, R189). -/
theorem step_of_stopped {s : State} (hs : s.state = .stopped) : step s = .next s := by
  simp [step, ready, hs]

/-- No step and no change of the host's own leaves Stopped or moves the registers. -/
theorem StoppedWith.stable (pc rb : Word) : Stable (StoppedWith pc rb) where
  ofStep s t hs h := by
    cases (step_of_stopped hs.1).symm.trans h
    exact hs
  inPush _ _ hs _ := hs
  outPopFront _ hs := hs
  outDrainAll _ hs := hs
  storeWord _ _ _ hs _ := hs

/-- Settles O47: a step of a Stopped state is idle, and no transaction but LOAD writes `state`, `pc` or `rb`
itself. -/
theorem stoppedIsTerminal : Obligations.StoppedIsTerminal :=
  fun s _ _ _ _ hs hnot h => (StoppedWith.stable s.pc s.rb).transact ⟨hs, rfl, rfl⟩ hnot h

/-! ### The sequential pc (R23, R24) -/

/-- Literal fetches that succeed stay below MEM_CAP (R91). -/
theorem fetchLiterals_le_memCap {n : Nat} {a : Int} {s t : State} {ws : List Word} (ha : a ≤ s.cfg.memCap)
    (h : fetchLiterals n a s = .ok ws t) : a + n ≤ s.cfg.memCap := by
  induction n generalizing a s ws with
  | zero => simpa using ha
  | succ n ih =>
    cases hok : addressOk s a with
    | false => simp [fetchLiterals, memRead_error hok] at h
    | true =>
      simp only [fetchLiterals, memRead_ok hok] at h
      split at h
      · cases h
      · next vs u hrest =>
        cases h
        have hlt := (addressOk_iff s a).1 hok
        have hle := ih (s := s.growTo a.toNat) (by simpa using hlt.2) hrest
        push_cast
        simp only [State.growTo_cfg] at hle
        omega

/-- A fetched instruction lies below MEM_CAP, and the front end leaves the pc and the parameters (R91). -/
theorem fetched_le_memCap {s t : State} {i : Instr} (h : fetchInstr s = .fetched i t) :
    t.pc = s.pc ∧ 0 ≤ s.pc.toInt ∧ s.pc.toInt + i.length ≤ s.cfg.memCap := by
  obtain ⟨hok, hd, lits, L, _, rfl, rfl, hlits⟩ := fetchInstr_fetched_cases h
  have hpc := (addressOk_iff s s.pc.toInt).1 hok
  have hle := fetchLiterals_le_memCap (s := s.growTo s.pc.toInt.toNat) (by simpa using hpc.2) hlits
  simp only [State.growTo_cfg] at hle
  refine ⟨rfl, hpc.1, ?_⟩
  rw [Head.instr_length]
  push_cast
  omega

/-- The advance is exact where its exact result is representable (R23). -/
theorem State.pcAfter_toInt {s : State} {n : Nat} (h : inRange64 (s.pc.toInt + n) = true) :
    (s.pcAfter n).toInt = s.pc.toInt + n := by
  have heq : s.pcAfter n = Word.ofInt (s.pc.toInt + n) := by
    simp [State.pcAfter, Word.ofInt, BitVec.ofInt_add]
  rw [heq, toInt_ofInt h]

/-- A legal MEM_CAP is at most 2^62 (R12). -/
theorem Config.memCap_le_of_legal {c : Config} (h : c.legal = true) : c.memCap ≤ 2 ^ 62 := by
  simp only [Config.legal, Bool.and_eq_true, decide_eq_true_eq] at h
  exact h.1.1.2

/-- Settles O7: the last literal is fetched below MEM_CAP, which is far below the end of `i64`. -/
theorem sequentialPcDoesNotWrap : Obligations.SequentialPcDoesNotWrap := by
  intro s t i hlegal h
  obtain ⟨hpc, hnonneg, hcap⟩ := fetched_le_memCap h
  have hmax := Config.memCap_le_of_legal hlegal
  have hrange : inRange64 (t.pc.toInt + i.length) = true := by
    rw [inRange64_iff, hpc]
    omega
  refine ⟨?_, hcap, by omega⟩
  rw [State.pcAfter_toInt hrange, hpc]

/-! ### The frame of ADD, MUL, LT, EQ and IN (R34, R54, R130, R240) -/

/-- How a storing instruction ends where it does not block: with an error, which changes the latch and memory's length
only, or with one word stored at its destination and the input queue `q`. -/
inductive StoreEnd (dst : Param) (q : List Word) (s : State) : State → Prop where
  | error (k : FaultKind) (addr : Int) (w : Word) (L : Nat) (hle : s.memLen ≤ L) :
    StoreEnd dst q s (({ s with memLen := L } : State).latch k addr w)
  | stored (v : Word) (L : Nat) (pc : Word) (hle : s.memLen ≤ L) :
    StoreEnd dst q s
      { s with mem := s.mem.write (destination dst s) v, memLen := L, pc := pc, state := .running, inQ := q }

theorem storeExact_storeEnd {f : Int → Int → Int} {w : Word} {a b dst : Param} {s t : State}
    (h : storeExact f w a b dst s = .next t) : StoreEnd dst s.inQ s t := by
  have la := le_lenAfter a s s.memLen
  have lb := le_lenAfter b s (lenAfter a s s.memLen)
  have ld := le_lenAfter dst s (lenAfter b s (lenAfter a s s.memLen))
  rw [storeExact_eq] at h
  split_ifs at h <;> cases h
  · exact .error _ _ _ s.memLen le_rfl
  · exact .error _ _ _ _ la
  · exact .error _ _ _ _ (la.trans lb)
  · exact .error _ _ _ _ (la.trans lb)
  · exact .stored _ _ _ ((la.trans lb).trans ld)

theorem storeCondition_storeEnd {c : Word → Word → Bool} {w : Word} {a b dst : Param} {s t : State}
    (h : storeCondition c w a b dst s = .next t) : StoreEnd dst s.inQ s t := by
  have la := le_lenAfter a s s.memLen
  have lb := le_lenAfter b s (lenAfter a s s.memLen)
  have ld := le_lenAfter dst s (lenAfter b s (lenAfter a s s.memLen))
  rw [storeCondition_eq] at h
  split_ifs at h <;> cases h
  · exact .error _ _ _ s.memLen le_rfl
  · exact .error _ _ _ _ la
  · exact .error _ _ _ _ (la.trans lb)
  · exact .stored _ _ _ ((la.trans lb).trans ld)

/-- Every end of ADD, MUL, LT and EQ. -/
theorem exec_storeEnd {a b dst : Param} {s t : State} {i : Instr}
    (hi : i ∈ [Instr.add a b dst, .mul a b dst, .lt a b dst, .eq a b dst]) (h : exec i s = .next t) :
    StoreEnd dst s.inQ s t := by
  simp only [List.mem_cons, List.not_mem_nil, or_false] at hi
  rcases hi with rfl | rfl | rfl | rfl
  · exact storeExact_storeEnd h
  · exact storeExact_storeEnd h
  · exact storeCondition_storeEnd h
  · exact storeCondition_storeEnd h

/-- Every end of IN: the block on an empty queue, or, with an input there, that of a storing instruction which
removes it (R130). -/
theorem execInput_cases {dst : Param} {s t : State} (h : execInput dst s = .next t) :
    (s.inQ = [] ∧ t = { s with state := .waitingForInput }) ∨ (s.inQ ≠ [] ∧ StoreEnd dst s.inQ.tail s t) := by
  unfold execInput at h
  split at h
  · next hq =>
    cases h
    exact .inl ⟨hq, rfl⟩
  · next v rest hq =>
    refine .inr ⟨by simp [hq], ?_⟩
    cases hd : writable dst s with
    | false =>
      rw [writeAddress_error hd] at h
      cases h
      exact .error _ _ _ s.memLen le_rfl
    | true =>
      rw [writeAddress_ok hd] at h
      cases h
      exact .stored v _ _ (le_max_left _ _)

/-- Settles O39: an error stores nothing, and the one word stored goes to the destination. -/
theorem storingInstructionsFrame : Obligations.StoringInstructionsFrame := by
  intro a b dst s t i hi h
  cases exec_storeEnd hi h with
  | error _ _ _ _ hle => exact ⟨fun _ _ => rfl, rfl, rfl, rfl, rfl, rfl, hle, .inr ⟨rfl, rfl, rfl⟩⟩
  | stored _ _ _ hle =>
    exact ⟨fun x hx => Memory.read_write_other _ _ _ _ hx, rfl, rfl, rfl, rfl, rfl, hle, .inl ⟨rfl, rfl⟩⟩

/-- Settles O40: a block changes `state` only, an error stores nothing, and the one word stored goes to the
destination. -/
theorem inputFrame : Obligations.InputFrame := by
  intro dst s t h
  rcases execInput_cases h with ⟨hq, rfl⟩ | ⟨hq, hend⟩
  · exact ⟨fun _ _ => rfl, rfl, rfl, rfl, rfl, le_rfl, .inr ⟨rfl, rfl, rfl, .inl ⟨hq, rfl, rfl⟩⟩⟩
  · cases hend with
    | error _ _ _ _ hle =>
      exact ⟨fun _ _ => rfl, rfl, rfl, rfl, rfl, hle, .inr ⟨rfl, rfl, rfl, .inr ⟨hq, rfl⟩⟩⟩
    | stored _ _ _ hle =>
      exact ⟨fun x hx => Memory.read_write_other _ _ _ _ hx, rfl, rfl, rfl, rfl, hle, .inl ⟨rfl, rfl, rfl⟩⟩

/-! ### The frame of OUT, JT, JF, ARB and HLT (R25, R34, R54, R63, R240) -/

/-- How an instruction `i` that stores nothing ends, `a` the operand of OUT and ARB: with an error, with a block that
changes nothing, or with a commit in which only OUT changes the output queue and only ARB `rb`. -/
inductive NonStoreEnd (a : Param) (i : Instr) (s : State) : State → Prop where
  | error (k : FaultKind) (addr : Int) (w : Word) (L : Nat) (hle : s.memLen ≤ L) :
    NonStoreEnd a i s (({ s with memLen := L } : State).latch k addr w)
  | blocked : NonStoreEnd a i s s
  | committed (L : Nat) (pc rb : Word) (q : List Word) (vm : VmState) (hle : s.memLen ≤ L)
    (hq : i ≠ .output a → q = s.outQ) (hrb : i ≠ .arb a → rb = s.rb)
    (hvm : vm = if i = .hlt then .stopped else .running) :
    NonStoreEnd a i s { s with memLen := L, pc := pc, rb := rb, outQ := q, state := vm }

theorem execOutput_nonStoreEnd {a : Param} {s t : State} (h : execOutput a s = .next t) :
    NonStoreEnd a (.output a) s t := by
  unfold execOutput at h
  split at h
  · cases h
    exact .blocked
  · cases ha : readable a s with
    | false =>
      rw [readOperand_error ha] at h
      cases h
      exact .error _ _ _ s.memLen le_rfl
    | true =>
      rw [readOperand_ok ha] at h
      cases h
      exact .committed _ _ s.rb _ _ (le_lenAfter a s s.memLen) (fun hne => absurd rfl hne) (fun _ => rfl) rfl

theorem jumpIf_nonStoreEnd {c : Word → Bool} {w : Word} {a target : Param} {i : Instr} {s t : State}
    (hi : i ≠ .hlt) (h : jumpIf c w a target s = .next t) : NonStoreEnd a i s t := by
  have la := le_lenAfter a s s.memLen
  have lb := le_lenAfter target s (lenAfter a s s.memLen)
  rw [jumpIf_eq] at h
  split at h
  · cases h
    exact .error _ _ _ s.memLen le_rfl
  · split at h
    · cases h
      exact .error _ _ _ _ la
    · cases h
      exact .committed _ _ s.rb s.outQ _ (la.trans lb) (fun _ => rfl) (fun _ => rfl) (if_neg hi).symm

theorem execArb_nonStoreEnd {a : Param} {s t : State} (h : execArb a s = .next t) : NonStoreEnd a (.arb a) s t := by
  unfold execArb at h
  cases ha : readable a s with
  | false =>
    rw [readOperand_error ha] at h
    cases h
    exact .error _ _ _ s.memLen le_rfl
  | true =>
    rw [readOperand_ok ha, Access.orRaise_ok] at h
    have la := le_lenAfter a s s.memLen
    unfold inRangeOrRaise at h
    split at h
    · cases h
      exact .committed _ _ _ s.outQ _ la (fun _ => rfl) (fun hne => absurd rfl hne) rfl
    · cases h
      exact .error _ _ _ _ la

theorem execHlt_nonStoreEnd {a : Param} {s t : State} (h : execHlt s = .next t) : NonStoreEnd a .hlt s t := by
  cases h
  exact .committed s.memLen _ s.rb s.outQ _ le_rfl (fun _ => rfl) (fun _ => rfl) rfl

/-- Every end of OUT, JT, JF, ARB and HLT. -/
theorem exec_nonStoreEnd {a target : Param} {s t : State} {i : Instr}
    (hi : i ∈ [Instr.output a, .jt a target, .jf a target, .arb a, .hlt]) (h : exec i s = .next t) :
    NonStoreEnd a i s t := by
  simp only [List.mem_cons, List.not_mem_nil, or_false] at hi
  rcases hi with rfl | rfl | rfl | rfl | rfl
  · exact execOutput_nonStoreEnd h
  · exact jumpIf_nonStoreEnd (by simp) h
  · exact jumpIf_nonStoreEnd (by simp) h
  · exact execArb_nonStoreEnd h
  · exact execHlt_nonStoreEnd h

/-- Settles O41: no end of these instructions stores a word; an error and a block leave the queues and registers. -/
theorem nonStoringInstructionsFrame : Obligations.NonStoringInstructionsFrame := by
  intro a target s t i hi h
  cases exec_nonStoreEnd hi h with
  | error _ _ _ _ hle =>
    exact ⟨fun _ => rfl, rfl, rfl, rfl, hle, fun _ => rfl, fun _ => rfl, .inr ⟨rfl, rfl, rfl, rfl⟩⟩
  | blocked =>
    exact ⟨fun _ => rfl, rfl, rfl, rfl, le_rfl, fun _ => rfl, fun _ => rfl, .inr ⟨rfl, rfl, rfl, rfl⟩⟩
  | committed _ _ _ _ _ hle hq hrb hvm => exact ⟨fun _ => rfl, rfl, rfl, rfl, hle, hq, hrb, .inl ⟨rfl, hvm⟩⟩

/-! ### The latch and the status read (R27, R200, R210) -/

/-- Settles O38: the latch holds the record raised, and an address in `i64` is the value of the word that holds it. -/
theorem latchRecordsTheExactAddress : Obligations.LatchRecordsTheExactAddress :=
  fun _ _ _ _ ha => ⟨rfl, latchAddr_toInt ha, rfl⟩

/-- With a program loaded every transaction is taken (R212). -/
theorem transact_of_loaded {s : State} (h : s.loaded = true) (fuel : Nat) (tr : Transaction) :
    transact fuel tr s = loadedReply fuel tr s := by
  simp [transact, h]

/-- Settles O56: both transactions read the fields and leave the state; the codes are those of R26 and R27. -/
theorem statusAndIsRunningShowTheInstance : Obligations.StatusAndIsRunningShowTheInstance := by
  intro s fuel h
  rw [transact_of_loaded h, transact_of_loaded h]
  have hstate (v : VmState) (hv : s.state = v) : s.state.code = v.code := congrArg _ hv
  have hkind (k : FaultKind) (hk : s.fault.kind = k) : s.fault.kind.code = k.code := congrArg _ hk
  exact ⟨rfl, _, rfl, h, hstate _, hstate _, hstate _, rfl, rfl, hkind _, hkind _, hkind _, hkind _, hkind _, rfl,
    rfl, rfl, rfl, rfl⟩

end Sys2Proof.Machine
end

section
/-! The memory family (20_memory.md). Program and data are one memory: the word ADD stores at the next pc is the word
the next step fetches. Two machines of a system share none: a transaction sets one element of the list of states. -/

namespace Sys2Proof.Machine

/-! ### A store and the next fetch (R66, R68, R277) -/

/-- The completion of the shape of ADD and MUL: operands that resolve and a representable result (R120, R121). -/
theorem storeExact_ok {f : Int → Int → Int} (w : Word) {a b dst : Param} {s : State} (ha : readable a s = true)
    (hb : readable b s = true) (hd : writable dst s = true)
    (hr : inRange64 (f (operandValue a s).toInt (operandValue b s).toInt) = true) :
    storeExact f w a b dst s = .next
      { s with
        mem := s.mem.write (destination dst s) (Word.ofInt (f (operandValue a s).toInt (operandValue b s).toInt))
        memLen := lenAfter dst s (lenAfter b s (lenAfter a s s.memLen))
        pc := s.pcAfter 4
        state := .running } := by
  simp [storeExact_eq, ha, hb, hd, hr]

/-- A ready state whose pc names a cell that holds 99 halts at its next step (R85, R170, R186). -/
theorem step_of_hlt_word {s : State} (hready : ready s = true) (hpc : 0 ≤ s.pc.toInt) (hcap : s.pc.toInt < s.cfg.memCap)
    (hword : s.mem.read s.pc.toInt.toNat = 99) :
    step s = .next
      { s with memLen := max s.memLen (s.pc.toInt.toNat + 1), pc := s.pcAfter 1, state := .stopped } := by
  have hd : decodeHead (s.mem.read s.pc.toInt.toNat) = .ok ⟨.hlt, []⟩ := hword ▸ (by decide : decodeHead 99 = _)
  have hfetch := fetchInstr_fetched hpc (by simpa [Opcode.nparams, Opcode.params] using hcap) hd
  simp only [step, hready, hfetch, if_true]
  rfl

/-- Settles O51: the sum is the word at the new pc (`Memory.read_write_same`), and it is HLT's. -/
theorem storeIsSeenByTheNextFetch : Obligations.StoreIsSeenByTheNextFetch := by
  intro a b dst s hwf hlegal hready hpc hcap ha hb hd hdst hsum
  have hmax := Config.memCap_le_of_legal hlegal
  obtain ⟨hloaded, hnone, _⟩ := (ready_iff s).1 hready
  have hadd : exec (.add a b dst) s = _ := storeExact_ok _ ha hb hd (by rw [hsum]; decide)
  rw [hsum] at hadd
  set t : State := { s with
    mem := s.mem.write (destination dst s) (Word.ofInt 99)
    memLen := lenAfter dst s (lenAfter b s (lenAfter a s s.memLen))
    pc := s.pcAfter 4
    state := .running }
  have htpc : t.pc.toInt = s.pc.toInt + 4 := State.pcAfter_toInt (by rw [inRange64_iff]; omega)
  have hcell : t.pc.toInt.toNat = destination dst s := by omega
  have hword : t.mem.read t.pc.toInt.toNat = 99 := by
    rw [hcell]
    exact Memory.read_write_same _ _ _ hwf
  have htready : ready t = true := (ready_iff t).2 ⟨hloaded, hnone, by simp [t]⟩
  have hhalt := step_of_hlt_word htready (by omega) (by rw [htpc]; exact hcap) hword
  have hupc : (t.pcAfter 1).toInt = t.pc.toInt + 1 := State.pcAfter_toInt (by rw [inRange64_iff]; omega)
  exact ⟨t, _, hadd, hhalt, rfl, hupc.trans (by omega), rfl⟩

/-! ### A system of several machines (R70) -/

/-- A transaction on machine `k` that answers is the transaction on its state, which alone is replaced. -/
theorem transactOn_cases {fuel k : Nat} {tr : Transaction} {sys sys' : List State} {r : Response}
    (h : transactOn fuel k tr sys = some (.next (r, sys'))) :
    ∃ s t, sys[k]? = some s ∧ transact fuel tr s = some (.next (r, t)) ∧ sys' = sys.set k t := by
  unfold transactOn at h
  split at h
  · cases h
  · next s hs =>
    split at h
    · cases h
    · next q t ht =>
      cases h
      exact ⟨s, t, hs, ht, rfl⟩
    · cases h
    · cases h

/-- Settles O60: the new system is the old one with element `k` set. -/
theorem instancesShareNothing : Obligations.InstancesShareNothing := by
  intro sys sys' fuel k j tr r h
  obtain ⟨s, t, hs, ht, rfl⟩ := transactOn_cases h
  obtain ⟨hk, _⟩ := List.getElem?_eq_some_iff.1 hs
  exact ⟨⟨s, t, hs, ht, List.getElem?_set_self hk⟩, List.length_set, fun hj => List.getElem?_set_ne hj.symm⟩

end Sys2Proof.Machine
end

section
/-! The encoding family (30_encoding.md). The decoder accepts a word exactly when it is the number of a head with one
legal mode per parameter (`decodeHead_ok_iff`); both round trips and the count of the legal words are read off that.
After it the ends of the front end, and the operand errors in their order. -/

namespace Sys2Proof

/-! ### Heads and their numbers (R81, R82, R83, R95) -/

/-- The modes a parameter may have (R83). -/
def ParamKind.modes : ParamKind → List Mode
  | .read => [.position, .immediate, .relative]
  | .write => [.position, .relative]

@[simp] theorem ParamKind.mem_modes_read (m : Mode) : m ∈ ParamKind.read.modes := by cases m <;> decide

@[simp] theorem ParamKind.mem_modes_write (m : Mode) : m ∈ ParamKind.write.modes ↔ m ≠ .immediate := by
  cases m <;> decide

/-- A head the table has: one legal mode per parameter (R83). -/
def Head.Legal (h : Head) : Prop := List.Forall₂ (· ∈ ·) h.modes (h.op.params.map ParamKind.modes)

/-- The number a head is written as: the mode digits above the two of the opcode field, the first lowest (R81). -/
def Head.number (h : Head) : Nat := h.op.code + 100 * Nat.ofDigits 10 (h.modes.map Mode.digit)

/-- What the instruction word of `i` says: its opcode and the modes of its parameters (R81). -/
def Instr.head (i : Instr) : Head := ⟨i.opcode, i.params.map Param.mode⟩

theorem Head.Legal.length_modes {h : Head} (hl : h.Legal) : h.modes.length = h.op.nparams := by
  simpa [Opcode.nparams] using List.Forall₂.length_eq hl

/-- An instruction is well formed exactly when its head is legal (R95). -/
theorem Instr.wellFormed_iff (i : Instr) : i.wellFormed = true ↔ i.head.Legal := by
  cases i <;> simp [Instr.wellFormed, Param.writeModeOk, Head.Legal, Instr.head, Instr.opcode, Instr.params,
    Opcode.params]

/-- The encoder writes the number of the head (R81, R102). -/
theorem Instr.wordNat_eq (i : Instr) : i.wordNat = i.head.number := by
  cases i <;> simp [Instr.wordNat, Head.number, Instr.head, Instr.opcode, Instr.modeDigit, Instr.params,
    Nat.ofDigits_cons] <;> omega

/-- The instruction made of a head and literals has that head. -/
theorem Head.instr_head {h : Head} (hlen : h.modes.length = h.op.nparams) (lits : List Word) :
    (h.instr lits).head = h := by
  obtain ⟨op, ms⟩ := h
  have hms : (List.range op.nparams).map (fun k => ms.getD k .position) = ms := by
    refine List.ext_getElem (by simpa using hlen.symm) fun k _ hk => ?_
    simp [hk]
  cases op <;> exact congrArg (Head.mk _) hms

/-! ### The decoder (R86 to R90) -/

/-- The modes the decoder reads are legal, and are the digits of the number from weight `10^j` up (R81, R83). -/
theorem decodeModes_ok {n j : Nat} {kinds : List ParamKind} {ms : List Mode} (h : decodeModes n kinds j = .ok ms) :
    List.Forall₂ (· ∈ ·) ms (kinds.map ParamKind.modes) ∧
      Nat.ofDigits 10 (ms.map Mode.digit) = n / 10 ^ j % 10 ^ kinds.length := by
  induction kinds generalizing j ms with
  | nil =>
    cases h
    exact ⟨.nil, by simp [Nat.mod_one]⟩
  | cons kind kinds ih =>
    obtain ⟨m, ms', rfl, hdigit, hwrite, hrest⟩ := decodeModes_cons h
    obtain ⟨hlegal, hvalue⟩ := ih hrest
    refine ⟨.cons ?_ hlegal, ?_⟩
    · cases kind with
      | read => simp
      | write => simpa using hwrite
    · rw [List.map_cons, Nat.ofDigits_cons, hvalue, hdigit, digit, List.length_cons,
        pow_succ' 10 kinds.length, Nat.mod_mul, Nat.div_div_eq_div_mul, pow_succ 10 j]

/-- A word the decoder accepts is the number of the head it answers, which is legal (R87, R90). -/
theorem decodeHead_legal {w : Word} {h : Head} (hd : decodeHead w = .ok h) : h.Legal ∧ w.toInt = h.number := by
  obtain ⟨hnonneg, hcode, hmodes, hexcess⟩ := decodeHead_ok hd
  obtain ⟨hlegal, hvalue⟩ := decodeModes_ok hmodes
  refine ⟨hlegal, ?_⟩
  have hsmall : w.toInt.toNat / 10 ^ 2 < 10 ^ h.op.params.length := by
    rw [Nat.div_lt_iff_lt_mul (by norm_num), ← pow_add]
    exact Nat.lt_of_div_eq_zero (by positivity) hexcess
  rw [Nat.mod_eq_of_lt hsmall] at hvalue
  have hsplit : h.number = w.toInt.toNat := by
    rw [Head.number, hvalue, hcode]
    exact Nat.mod_add_div _ 100
  omega

/-- The instruction word of a well-formed instruction decodes to its head, whatever the opcode. -/
theorem decodeHead_word {i : Instr} (hi : i.wellFormed = true) : decodeHead i.word = .ok i.head := by
  have hround : Laws.HeadRoundTrip.Statement i := by
    cases i with
    | add a b dst => exact Laws.HeadRoundTrip.add a b dst
    | mul a b dst => exact Laws.HeadRoundTrip.mul a b dst
    | input dst => exact Laws.HeadRoundTrip.input dst
    | output a => exact Laws.HeadRoundTrip.output a
    | jt a target => exact Laws.HeadRoundTrip.jt a target
    | jf a target => exact Laws.HeadRoundTrip.jf a target
    | lt a b dst => exact Laws.HeadRoundTrip.lt a b dst
    | eq a b dst => exact Laws.HeadRoundTrip.eq a b dst
    | arb a => exact Laws.HeadRoundTrip.arb a
    | hlt => exact Laws.HeadRoundTrip.hlt
  exact hround hi

/-- A word that holds a number is the word the number is written as. -/
theorem ofNat_eq_of_toInt {w : Word} {n : Nat} (h : w.toInt = n) : BitVec.ofNat 64 n = w := by
  rw [← BitVec.ofInt_natCast, ← h, BitVec.ofInt_toInt]

/-- The instruction made of a legal head and literals is well formed, and its word is the one that holds the head's
number. -/
theorem Head.Legal.instr {h : Head} (hl : h.Legal) (lits : List Word) {w : Word} (hw : w.toInt = h.number) :
    (h.instr lits).wellFormed = true ∧ (h.instr lits).word = w := by
  have hhead := Head.instr_head hl.length_modes lits
  refine ⟨(Instr.wellFormed_iff _).2 (hhead.symm ▸ hl), ?_⟩
  rw [Instr.word, Instr.wordNat_eq, hhead]
  exact ofNat_eq_of_toInt hw

/-- The decoder accepts exactly the numbers of the legal heads (R86). -/
theorem decodeHead_ok_iff (w : Word) (h : Head) : decodeHead w = .ok h ↔ h.Legal ∧ w.toInt = h.number := by
  refine ⟨decodeHead_legal, fun ⟨hlegal, hw⟩ => ?_⟩
  obtain ⟨hwf, hword⟩ := hlegal.instr [] hw
  rw [← hword, decodeHead_word hwf, Head.instr_head hlegal.length_modes]

/-! ### The round trips (R84, R87, R99, R102) -/

/-- An instruction has as many parameters as its opcode tells (R84). -/
theorem Instr.length_params (i : Instr) : i.params.length = i.opcode.nparams := by cases i <;> rfl

/-- The head of an instruction and its literals, whatever follows them, make the instruction again (R80, R91). -/
theorem Instr.instr_head (i : Instr) (rest : List Word) : i.head.instr (i.params.map Param.lit ++ rest) = i := by
  cases i <;> rfl

/-- The literals of the instruction a head makes are the first of the words it is made of (R80, R91). -/
theorem Head.instr_lits (h : Head) {lits : List Word} (hlen : h.op.nparams ≤ lits.length) :
    (h.instr lits).params.map Param.lit = lits.take h.op.nparams := by
  have hlits : (List.range h.op.nparams).map (fun k => lits.getD k 0) = lits.take h.op.nparams := by
    refine List.ext_getElem (by simpa using hlen) fun k hk _ => ?_
    have hk : k < lits.length := by simp at hk; omega
    simp [hk]
  rw [← hlits]
  obtain ⟨op, ms⟩ := h
  cases op <;> rfl

/-- Settles O1: the instruction word decodes to the head, which makes the instruction again from its literals. -/
theorem decodeOfEncodeIsTheInstruction : Obligations.DecodeOfEncodeIsTheInstruction := by
  intro i rest hi
  have hlen : (i.params.map Param.lit).length = i.head.op.nparams := by
    rw [List.length_map]
    exact i.length_params
  have henough : ¬ (i.params.map Param.lit ++ rest).length < i.head.op.nparams := by
    rw [List.length_append, hlen]
    omega
  simp only [encode, List.cons_append, decode, decodeHead_word hi, henough, if_false, i.instr_head rest,
    List.drop_left' hlen]

/-- Settles O2: an accepted word is the word of the instruction its head makes, and the literals are the words taken
after it. -/
theorem decodedWordsAreAnEncoding : Obligations.DecodedWordsAreAnEncoding := by
  intro ws rest i hd
  obtain ⟨w, lits, h, rfl, hhead, hlen, rfl, rfl⟩ := decode_ok hd
  obtain ⟨hlegal, hw⟩ := decodeHead_legal hhead
  obtain ⟨hwf, hword⟩ := hlegal.instr lits hw
  refine ⟨hwf, ?_⟩
  rw [encode, hword, h.instr_lits hlen, List.cons_append, List.take_append_drop]

/-! ### The legal words (R86) -/

/-- The opcodes in the table's order (R85). -/
def Opcode.all : List Opcode := [.add, .mul, .input, .output, .jt, .jf, .lt, .eq, .arb, .hlt]

theorem Opcode.mem_all (op : Opcode) : op ∈ Opcode.all := by cases op <;> decide

/-- The legal heads, opcode by opcode. -/
def Head.legalHeads : List Head :=
  Opcode.all.flatMap fun op => (op.params.map ParamKind.modes).sections.map (Head.mk op)

theorem Head.mem_legalHeads (h : Head) : h ∈ Head.legalHeads ↔ h.Legal := by
  obtain ⟨op, ms⟩ := h
  simp [Head.legalHeads, Head.Legal, Opcode.mem_all, List.mem_sections]

/-- The decoder accepts exactly the numbers of the listed heads. -/
theorem exists_decodeHead_ok_iff (w : Word) :
    (∃ h, decodeHead w = .ok h) ↔ ∃ n ∈ Head.legalHeads.map Head.number, w.toInt = (n : Int) := by
  simp [decodeHead_ok_iff, Head.mem_legalHeads]

/-- Settles O3: the list written out holds the numbers of the legal heads, in another order. -/
theorem legalWordsAreExactlyNinetyNine : Obligations.LegalWordsAreExactlyNinetyNine := by
  unfold Obligations.LegalWordsAreExactlyNinetyNine
  intro legal
  have hperm : legal.Perm (Head.legalHeads.map Head.number) := by decide
  refine ⟨by decide, by decide, fun w => ?_⟩
  simp only [exists_decodeHead_ok_iff, hperm.mem_iff]

/-- Settles O4: the decoder run on each of the words. -/
theorem sampleWordsDecodeAsWritten : Obligations.SampleWordsDecodeAsWritten := by
  unfold Obligations.SampleWordsDecodeAsWritten
  decide

end Sys2Proof

namespace Sys2Proof.Machine

/-! ### The ends of the front end (R87, R91, R186) -/

theorem step_of_fetched {s t : State} {i : Instr} (hr : ready s = true) (hf : fetchInstr s = .fetched i t) :
    step s = exec i t := by
  simp [step, hr, hf]

theorem step_of_fatal {s t : State} (hr : ready s = true) (hf : fetchInstr s = .fatal t) : step s = .next t := by
  simp [step, hr, hf]

/-- The fetch at an illegal pc: nothing has grown, and no word is known (R232, R233). -/
theorem fetchInstr_of_illegal_pc {s : State} (hpc : addressOk s s.pc.toInt = false) :
    fetchInstr s = .fatal { s with fault := ⟨addressError s.pc.toInt, s.pc, 0⟩ } := by
  simp only [fetchInstr, memRead_error hpc, State.latch, latchAddr_word]

/-- A word at a legal pc that the decoder refuses (R87, R231). -/
theorem fetchInstr_of_illegal_word {s : State} {e : DecodeError} (hpc : addressOk s s.pc.toInt = true)
    (hd : decodeHead (s.mem.read s.pc.toInt.toNat) = .error e) :
    fetchInstr s = .fatal
      { s with
        memLen := max s.memLen (s.pc.toInt.toNat + 1)
        fault := ⟨.invalidOpcode, s.pc, s.mem.read s.pc.toInt.toNat⟩ } := by
  simp only [fetchInstr, memRead_ok hpc, hd, State.growTo_pc, State.latch, latchAddr_word]
  rfl

/-- Literal fetches that reach MEM_CAP end there, with memory grown up to it (R91, R233). -/
theorem fetchLiterals_beyond {n : Nat} {a : Int} {s : State} (h0 : 0 ≤ a) (hcap : a ≤ s.cfg.memCap)
    (hlen : a.toNat ≤ s.memLen) (hn : (s.cfg.memCap : Int) < a + n) :
    fetchLiterals n a s = .error .capacityExceeded s.cfg.memCap { s with memLen := max s.memLen s.cfg.memCap } := by
  induction n generalizing a s with
  | zero => omega
  | succ n ih =>
    by_cases ha : a = s.cfg.memCap
    · subst ha
      have hok : addressOk s s.cfg.memCap = false := by simp [addressOk]
      have hkind : addressError s.cfg.memCap = .capacityExceeded := if_neg (by omega)
      have hmax : max s.memLen s.cfg.memCap = s.memLen := by omega
      simp only [fetchLiterals, memRead_error hok, hkind, hmax]
    · have hok : addressOk s a = true := by rw [addressOk_iff]; omega
      have hrec := ih (a := a + 1) (s := s.growTo a.toNat) (by omega) (by simp; omega) (by simp)
        (by simp; omega)
      have hmax : max (max s.memLen (a.toNat + 1)) s.cfg.memCap = max s.memLen s.cfg.memCap := by omega
      simp only [fetchLiterals, memRead_ok hok, hrec, State.growTo_memLen, State.growTo_cfg, hmax]
      rfl

/-- A legal word whose literals reach MEM_CAP (R91, R233). -/
theorem fetchInstr_of_literal_beyond {s : State} {h : Head} (hpc : addressOk s s.pc.toInt = true)
    (hd : decodeHead (s.mem.read s.pc.toInt.toNat) = .ok h)
    (hcap : (s.cfg.memCap : Int) ≤ s.pc.toInt + h.op.nparams) :
    fetchInstr s = .fatal
      (({ s with memLen := max s.memLen s.cfg.memCap } : State).latch .capacityExceeded s.cfg.memCap
        (s.mem.read s.pc.toInt.toNat)) := by
  obtain ⟨hnonneg, hlt⟩ := (addressOk_iff s _).1 hpc
  have hlits := fetchLiterals_beyond (n := h.op.nparams) (a := s.pc.toInt + 1) (s := s.growTo s.pc.toInt.toNat)
    (by omega) (by simp; omega) (by simp) (by simp; omega)
  have hmax : max (max s.memLen (s.pc.toInt.toNat + 1)) s.cfg.memCap = max s.memLen s.cfg.memCap := by omega
  simp only [fetchInstr, memRead_ok hpc, hd, State.growTo_pc, hlits, State.growTo_memLen, State.growTo_cfg, hmax]
  rfl

/-- Settles O5: the list the decoder is given is the word and the literals the front end fetches. -/
theorem stepRunsTheDecodedInstruction : Obligations.StepRunsTheDecodedInstruction := by
  intro s i hready hpc hcap hdec
  obtain ⟨w, lits, h, hws, hhead, -, rfl, -⟩ := decode_ok hdec
  rw [Head.instr_length] at hcap
  push_cast at hcap
  rw [Head.instr_length, Nat.add_comm, wordsAt_succ] at hws
  obtain ⟨rfl, rfl⟩ := List.cons.inj hws
  rw [Head.instr_length]
  exact step_of_fetched hready (fetchInstr_fetched hpc (by omega) hhead)

/-- Settles O6: the word the decoder accepted is the number of the head the instruction is made of. -/
theorem fetchedInstructionHasTheFetchedWord : Obligations.FetchedInstructionHasTheFetchedWord := by
  intro s t i hf
  obtain ⟨-, h, lits, L, hhead, rfl, rfl, -⟩ := fetchInstr_fetched_cases hf
  obtain ⟨hlegal, hw⟩ := decodeHead_legal hhead
  obtain ⟨hwf, hword⟩ := hlegal.instr lits hw
  exact ⟨hword, hwf, rfl, rfl⟩

/-- Settles O8: both pcs fail the first check, and their sign tells the kind. -/
theorem fetchAtAnIllegalPcIsLatched : Obligations.FetchAtAnIllegalPcIsLatched := by
  intro s hready
  refine ⟨fun hneg => ?_, fun hcap => ?_⟩
  · have hkind : addressError s.pc.toInt = .invalidAddress := if_pos hneg
    rw [step_of_fatal hready (fetchInstr_of_illegal_pc (by simp [addressOk]; omega)), hkind]
  · have hkind : addressError s.pc.toInt = .capacityExceeded := if_neg (by omega)
    rw [step_of_fatal hready (fetchInstr_of_illegal_pc (by simp [addressOk]; omega)), hkind]

/-- Settles O9: a negative word is one the decoder refuses (R88). -/
theorem illegalWordIsLatched : Obligations.IllegalWordIsLatched := by
  intro s hready hpc hcap hword
  have herr : ∃ e, decodeHead (s.mem.read s.pc.toInt.toNat) = .error e := by
    rcases hword with herr | hneg
    · exact herr
    · exact ⟨.negativeWord, if_pos hneg⟩
  obtain ⟨e, he⟩ := herr
  exact step_of_fatal hready (fetchInstr_of_illegal_word ((addressOk_iff s _).2 ⟨hpc, hcap⟩) he)

/-- Settles O10: the first literal that is not there is at MEM_CAP, which a word holds. -/
theorem literalBeyondCapacityIsLatched : Obligations.LiteralBeyondCapacityIsLatched := by
  intro s h hlegal hready hpc hlt hhead hcap
  have hmax := Config.memCap_le_of_legal hlegal
  have haddr : latchAddr s.cfg.memCap = Word.ofInt s.cfg.memCap := if_pos ((inRange64_iff _).2 (by omega))
  have hok := (addressOk_iff s _).2 ⟨hpc, hlt⟩
  rw [step_of_fatal hready (fetchInstr_of_literal_beyond hok hhead hcap), State.latch, haddr]

/-! ### The operand errors, in their order (R93, R94, R97) -/

/-- A destination that is no Immediate has its address's error (R94). -/
theorem writeError_of_address {p : Param} (s : State) (hp : p.mode ≠ .immediate) :
    writeError p s = addressError (operandAddress p s) := if_neg hp

theorem writeErrorAddr_of_address {p : Param} (s : State) (hp : p.mode ≠ .immediate) :
    writeErrorAddr p s = operandAddress p s := if_neg hp

/-- The result `r` of an instruction with word `w` that reads `a`, then `b`, is the error of the first of them that is
not readable. -/
structure ReadErrors (w : Word) (a b : Param) (s : State) (r : Result) : Prop where
  first : readable a s = false → r = raise (readError a s) (operandAddress a s) w s
  second : readable a s = true → readable b s = false →
    r = raise (readError b s) (operandAddress b s) w { s with memLen := lenAfter a s s.memLen }

/-- The same where `r` then resolves the destination `dst`. -/
structure StoreErrors (w : Word) (a b dst : Param) (s : State) (r : Result) : Prop extends ReadErrors w a b s r where
  dst : readable a s = true → readable b s = true → writable dst s = false →
    r = raise (writeError dst s) (writeErrorAddr dst s) w { s with memLen := lenAfter b s (lenAfter a s s.memLen) }

theorem storeExact_errors (f : Int → Int → Int) (w : Word) (a b dst : Param) (s : State) :
    StoreErrors w a b dst s (storeExact f w a b dst s) where
  first ha := by simp [storeExact_eq, ha]
  second ha hb := by simp [storeExact_eq, ha, hb]
  dst ha hb hd := by simp [storeExact_eq, ha, hb, hd]

theorem storeCondition_errors (c : Word → Word → Bool) (w : Word) (a b dst : Param) (s : State) :
    StoreErrors w a b dst s (storeCondition c w a b dst s) where
  first ha := by simp [storeCondition_eq, ha]
  second ha hb := by simp [storeCondition_eq, ha, hb]
  dst ha hb hd := by simp [storeCondition_eq, ha, hb, hd]

/-- A jump resolves its target taken or not (R97). -/
theorem jumpIf_errors (c : Word → Bool) (w : Word) (a target : Param) (s : State) :
    ReadErrors w a target s (jumpIf c w a target s) where
  first ha := by simp [jumpIf_eq, ha]
  second ha hb := by simp [jumpIf_eq, ha, hb]

theorem execOutput_error {a : Param} {s : State} (hroom : outFull s = false) (ha : readable a s = false) :
    execOutput a s = raise (readError a s) (operandAddress a s) (Instr.output a).word s := by
  simp [execOutput, hroom, readOperand_error ha]

theorem execArb_error {a : Param} {s : State} (ha : readable a s = false) :
    execArb a s = raise (readError a s) (operandAddress a s) (Instr.arb a).word s := by
  simp [execArb, readOperand_error ha]

/-- The operand errors of ADD, MUL, LT and EQ. -/
theorem exec_storeErrors {a b dst : Param} {i : Instr}
    (hi : i ∈ [Instr.add a b dst, .mul a b dst, .lt a b dst, .eq a b dst]) (s : State) :
    StoreErrors i.word a b dst s (exec i s) := by
  simp only [List.mem_cons, List.not_mem_nil, or_false] at hi
  rcases hi with rfl | rfl | rfl | rfl
  · exact storeExact_errors _ _ a b dst s
  · exact storeExact_errors _ _ a b dst s
  · exact storeCondition_errors _ _ a b dst s
  · exact storeCondition_errors _ _ a b dst s

/-- The operand errors of JT and JF. -/
theorem exec_jumpErrors {a target : Param} {i : Instr} (hi : i ∈ [Instr.jt a target, .jf a target]) (s : State) :
    ReadErrors i.word a target s (exec i s) := by
  simp only [List.mem_cons, List.not_mem_nil, or_false] at hi
  rcases hi with rfl | rfl
  · exact jumpIf_errors _ _ a target s
  · exact jumpIf_errors _ _ a target s

/-- Settles O35: the storing instructions share their operand errors; a destination with an address has that
address's. -/
theorem storingOperandErrorsInOrder : Obligations.StoringOperandErrorsInOrder := by
  intro a b dst s i hi
  have herr := exec_storeErrors hi s
  refine ⟨herr.first, herr.second, fun ha hb hmode hd => ?_⟩
  rw [herr.dst ha hb hd, writeError_of_address s hmode, writeErrorAddr_of_address s hmode]
  rfl

/-- Settles O36: OUT and ARB have one operand to resolve, the jumps two. -/
theorem readingOperandErrorsInOrder : Obligations.ReadingOperandErrorsInOrder := by
  intro a target s
  refine ⟨fun i hi hroom ha => ?_, fun i hi => (exec_jumpErrors hi s).second⟩
  simp only [List.mem_cons, List.not_mem_nil, or_false] at hi
  rcases hi with rfl | rfl | rfl | rfl
  · exact execOutput_error (hroom rfl) ha
  · exact execArb_error ha
  · exact (jumpIf_errors _ _ a target s).first ha
  · exact (jumpIf_errors _ _ a target s).first ha

end Sys2Proof.Machine
end

section
/-! The arithmetic family (40_arithmetic.md). ADD and MUL are one shape, `storeExact`, at two functions: what the shape
does is proved once, for any exact function, and each statement is its case at the sum and at the product. -/

namespace Sys2Proof.Machine

/-- ADD is the shape at the exact sum (R120, R186). -/
theorem exec_add (a b dst : Param) (s : State) :
    exec (.add a b dst) s = storeExact (fun x y => x + y) (Instr.add a b dst).word a b dst s := rfl

/-- MUL is the shape at the exact product (R121, R186). -/
theorem exec_mul (a b dst : Param) (s : State) :
    exec (.mul a b dst) s = storeExact (fun x y => x * y) (Instr.mul a b dst).word a b dst s := rfl

section Shape

variable {f : Int → Int → Int} {a b dst : Param} {s : State}

/-- The overflow end of the shape: the record names the pc, and memory has grown over the two operands only (R123,
R234, R240). -/
theorem storeExact_overflow (w : Word) (ha : readable a s = true) (hb : readable b s = true)
    (hd : writable dst s = true) (hr : inRange64 (f (operandValue a s).toInt (operandValue b s).toInt) = false) :
    storeExact f w a b dst s = .next
      { s with
        memLen := lenAfter b s (lenAfter a s s.memLen)
        fault := ⟨.arithmeticOverflow, s.pc, w⟩ } := by
  simp [storeExact_eq, ha, hb, hd, hr, raise, State.latch]

/-- What the shape leaves at its destination is the function of the operand values before the instruction; no
hypothesis separates the addresses, because both values are read before the write (R97, R124). -/
theorem storeExact_read_destination (w : Word) (hwf : s.mem.wf = true) (ha : readable a s = true)
    (hb : readable b s = true) (hd : writable dst s = true)
    (hr : inRange64 (f (operandValue a s).toInt (operandValue b s).toInt) = true) :
    ∃ t, storeExact f w a b dst s = .next t ∧
      (t.mem.read (destination dst s)).toInt = f (operandValue a s).toInt (operandValue b s).toInt := by
  refine ⟨_, storeExact_ok w ha hb hd hr, ?_⟩
  rw [Memory.read_write_same _ _ _ hwf, toInt_ofInt hr]

end Shape

/-- Settles O14: the completion of the shape at the exact sum. -/
theorem addStoresTheExactSum : Obligations.AddStoresTheExactSum := by
  intro a b dst s ha hb hd hr
  rw [exec_add, storeExact_ok _ ha hb hd hr]
  rfl

/-- Settles O15: the completion of the shape at the exact product. -/
theorem mulStoresTheExactProduct : Obligations.MulStoresTheExactProduct := by
  intro a b dst s ha hb hd hr
  rw [exec_mul, storeExact_ok _ ha hb hd hr]
  rfl

/-- Settles O16: the overflow end of the shape, at the exact sum and at the exact product. -/
theorem overflowOfAddAndMulIsLatched : Obligations.OverflowOfAddAndMulIsLatched := by
  intro a b dst s ha hb hd
  exact ⟨fun hr => (exec_add a b dst s).trans (storeExact_overflow _ ha hb hd hr),
    fun hr => (exec_mul a b dst s).trans (storeExact_overflow _ ha hb hd hr)⟩

/-- Settles O17: the word the shape leaves at its destination, at the exact sum and at the exact product. -/
theorem destinationMayBeAnOperand : Obligations.DestinationMayBeAnOperand := by
  intro a b dst s hwf ha hb hd
  rw [exec_add, exec_mul]
  exact ⟨storeExact_read_destination _ hwf ha hb hd, storeExact_read_destination _ hwf ha hb hd⟩

end Sys2Proof.Machine
end

section
/-! The input and output family (41_io.md). The ends of IN and OUT are said once, each an equation on `exec`; a STEP at
a decoded instruction is that instruction's end with its queue check as the response. The round trip of a value and the
resumption of a blocked Input are two such equations in a row. -/

namespace Sys2Proof.Machine

/-! ### The ends of IN and OUT (R130, R131, R238, R240) -/

/-- IN blocks on an empty queue before its destination is looked at (R97, R130). -/
theorem exec_input_of_empty (dst : Param) {s : State} (hq : s.inQ = []) :
    exec (.input dst) s = .next { s with state := .waitingForInput } := by
  simp only [exec, execInput, hq, blockNoInput]

/-- The completion of IN (R23, R130). -/
theorem exec_input_ok {dst : Param} {s : State} {v : Word} {rest : List Word} (hq : s.inQ = v :: rest)
    (hd : writable dst s = true) :
    exec (.input dst) s = .next
      { s with
        mem := s.mem.write (destination dst s) v
        memLen := lenAfter dst s s.memLen
        pc := s.pcAfter 2
        inQ := rest
        state := .running } := by
  simp [exec, execInput, hq, writeAddress_ok hd, lenAfter_of_writable _ hd, commitStore, State.storeWord, State.inPop,
    State.advance, State.pcAfter]

/-- IN with an input queued and a destination that does not resolve: the value is not yet removed (R97, R240). -/
theorem exec_input_error {dst : Param} {s : State} (hq : s.inQ ≠ []) (hd : writable dst s = false) :
    exec (.input dst) s = raise (writeError dst s) (writeErrorAddr dst s) (Instr.input dst).word s := by
  obtain ⟨v, rest, hcons⟩ := List.exists_cons_of_ne_nil hq
  simp [exec, execInput, hcons, writeAddress_error hd]

/-- The completion of OUT (R23, R131). -/
theorem exec_output_ok {a : Param} {s : State} (hroom : outFull s = false) (ha : readable a s = true) :
    exec (.output a) s = .next
      { s with
        memLen := lenAfter a s s.memLen
        pc := s.pcAfter 2
        outQ := s.outQ ++ [operandValue a s]
        state := .running } := by
  simp [exec, execOutput, hroom, readOperand_ok ha, State.outPush, State.advance, State.pcAfter]

/-- OUT blocks on a full queue before its operand is read (R97, R131). -/
theorem exec_output_of_full (a : Param) {s : State} (hfull : outFull s = true) : exec (.output a) s = .next s := by
  simp [exec, execOutput, hfull, blockOutputFull]

theorem outFull_of_inf {s : State} (h : s.cfg.outDepth = .inf) : outFull s = false := by
  simp [outFull, h]

theorem outFull_of_words {s : State} {d : Nat} (h : s.cfg.outDepth = .words d) :
    outFull s = decide (s.outQ.length = d) := by
  simp [outFull, h]

/-- Settles O21: the completion of IN. -/
theorem inputStoresTheOldestInput : Obligations.InputStoresTheOldestInput := by
  intro dst s v rest hq hd
  exact exec_input_ok hq hd

/-- Settles O22: the block of IN. -/
theorem inputBlocksOnAnEmptyQueue : Obligations.InputBlocksOnAnEmptyQueue :=
  fun dst _ hq => exec_input_of_empty dst hq

/-- Settles O23: the completion of OUT. -/
theorem outputAppendsItsOperand : Obligations.OutputAppendsItsOperand := by
  intro a s hroom ha
  exact exec_output_ok hroom ha

/-- Settles O24: a finite depth is compared with the queue's length, and INF is never reached. -/
theorem outputWaitsOnlyOnAFullQueue : Obligations.OutputWaitsOnlyOnAFullQueue := by
  refine fun s => ⟨outFull_of_inf, fun d hd hne => ?_, fun d a hd heq => ?_⟩
  · simp [outFull_of_words hd, hne]
  · have hfull : outFull s = true := by simp [outFull_of_words hd, heq]
    exact ⟨hfull, exec_output_of_full a hfull⟩

/-- Settles O37: a destination with an address has that address's error, and the latch is all it writes. -/
theorem inputErrorConsumesNothing : Obligations.InputErrorConsumesNothing := by
  intro dst s hq hmode hd
  rw [exec_input_error hq hd, writeError_of_address s hmode, writeErrorAddr_of_address s hmode]
  rfl

/-- Position mode resolves to the literal, whatever is read or written there (R93, R94). -/
theorem writable_position (d : Word) (s : State) : writable ⟨.position, d⟩ s = addressOk s d.toInt := by
  simp [writable, operandAddress]

theorem readable_position (d : Word) (s : State) : readable ⟨.position, d⟩ s = addressOk s d.toInt := by
  simp [readable, operandAddress]

/-- Settles O25: OUT reads the cell IN wrote (`Memory.read_write_same`), and IN leaves the output queue. -/
theorem inputThenOutputYieldsTheValue : Obligations.InputThenOutputYieldsTheValue := by
  intro d s x rest hwf hq haddr hroom
  have hin := exec_input_ok (dst := ⟨.position, d⟩) hq ((writable_position d s).trans haddr)
  set t : State := { s with
    mem := s.mem.write (destination ⟨.position, d⟩ s) x
    memLen := lenAfter ⟨.position, d⟩ s s.memLen
    pc := s.pcAfter 2
    inQ := rest
    state := .running }
  have hread : readable ⟨.position, d⟩ t = true := (readable_position d t).trans haddr
  have hvalue : operandValue ⟨.position, d⟩ t = x := Memory.read_write_same _ _ _ hwf
  refine ⟨t, _, hin, exec_output_ok hroom hread, rfl, ?_⟩
  show s.outQ ++ [operandValue ⟨.position, d⟩ t] = s.outQ ++ [x]
  rw [hvalue]

/-! ### A STEP at a decoded instruction (R186) -/

/-- A state whose next STEP runs `i`: it is ready, and the words at its pc are `i`'s, all of them below MEM_CAP. -/
structure AtInstr (i : Instr) (s : State) : Prop where
  ready : ready s = true
  nonneg : 0 ≤ s.pc.toInt
  below : s.pc.toInt + i.length ≤ s.cfg.memCap
  decodes : decode (wordsAt s s.pc.toInt.toNat i.length) = .ok (i, [])

/-- The front end hands `i` on, with memory grown over its words (R91). -/
theorem AtInstr.fetched {i : Instr} {s : State} (h : AtInstr i s) :
    fetchInstr s = .fetched i { s with memLen := max s.memLen (s.pc.toInt.toNat + i.length) } := by
  obtain ⟨-, hpc, hcap, hdec⟩ := h
  obtain ⟨w, lits, hd, hws, hhead, -, rfl, -⟩ := decode_ok hdec
  rw [Head.instr_length] at hcap
  push_cast at hcap
  rw [Head.instr_length, Nat.add_comm, wordsAt_succ] at hws
  obtain ⟨rfl, rfl⟩ := List.cons.inj hws
  rw [Head.instr_length]
  exact fetchInstr_fetched hpc (by omega) hhead

/-- A STEP that latches no error answers what the queue check of its instruction says (R186). -/
theorem stepReply_of_fetched {s t u : State} {i : Instr} {b : Option BlockReason} (hr : ready s = true)
    (hf : fetchInstr s = .fetched i t) (hb : blockedBy i t = b) (he : exec i t = .next u) (hu : u.fault.kind = .none) :
    stepReply s = .next (b.elim (.progressed u.state) .blocked, u) := by
  obtain ⟨hloaded, hnone, hrun⟩ := (ready_iff s).1 hr
  rw [stepReply_eq ((step_of_fetched hr hf).trans he)]
  cases b <;> simp [stepResponse, stepBlock, hloaded, hnone, hrun, hu, hf, hb]

/-- STEP at an Input with an empty queue (R188, R238). -/
theorem AtInstr.stepReply_input_of_empty {dst : Param} {s : State} (h : AtInstr (.input dst) s) (hq : s.inQ = []) :
    stepReply s = .next (.blocked .noInput,
      { s with memLen := max s.memLen (s.pc.toInt.toNat + 2), state := .waitingForInput }) := by
  obtain ⟨-, hnone, -⟩ := (ready_iff s).1 h.ready
  exact stepReply_of_fetched (b := some .noInput) h.ready h.fetched (by simp [blockedBy, inEmpty, hq])
    (exec_input_of_empty dst hq) hnone

/-- STEP at an Input with an input queued and a destination that resolves (R130, R187). -/
theorem AtInstr.stepReply_input_ok {dst : Param} {s : State} {v : Word} {rest : List Word}
    (h : AtInstr (.input dst) s) (hq : s.inQ = v :: rest) (hd : writable dst s = true) :
    stepReply s = .next (.progressed .running,
      { s with
        mem := s.mem.write (destination dst s) v
        memLen := lenAfter dst s (max s.memLen (s.pc.toInt.toNat + 2))
        pc := s.pcAfter 2
        inQ := rest
        state := .running }) := by
  obtain ⟨-, hnone, -⟩ := (ready_iff s).1 h.ready
  exact stepReply_of_fetched (b := none) h.ready h.fetched (by simp [blockedBy, inEmpty, hq])
    (exec_input_ok hq hd) hnone

/-! ### A blocked Input resumes (R133, R188, R198) -/

/-- A depth the parameters may have holds one value (R12). -/
theorem Depth.fits_one_of_legal {d : Depth} (h : d.legal = true) : d.fits 1 = true := by
  cases d with
  | inf => rfl
  | words n => simpa [Depth.legal, Depth.fits, Nat.succ_le_iff] using h

/-- With legal parameters an empty input queue takes one value (R198, R201). -/
theorem addInputs_one_of_empty {s : State} (v : Word) (hlegal : s.cfg.legal = true) (hq : s.inQ = []) :
    addInputs [v] s = (.ok, { s with inQ := [v] }) := by
  have hdepth : s.cfg.inDepth.legal = true := (Bool.and_eq_true_iff.1 (Bool.and_eq_true_iff.1 hlegal).1).2
  simp [addInputs, State.inPush, hq, Depth.fits_one_of_legal hdepth]

/-- Waiting with a value queued, the same instruction is next: neither the front end nor the gate looks at what a block
and ADD_INPUTS change (R188). -/
theorem AtInstr.waiting {i : Instr} {s : State} (h : AtInstr i s) (L : Nat) (q : List Word) :
    AtInstr i { s with memLen := L, state := .waitingForInput, inQ := q } := by
  obtain ⟨hready, hpc, hcap, hdec⟩ := h
  obtain ⟨hloaded, hnone, -⟩ := (ready_iff s).1 hready
  exact ⟨(ready_iff _).2 ⟨hloaded, hnone, by simp⟩, hpc, hcap, hdec⟩

/-- Settles O26: the block and the completion are the two ends of STEP at the same Input; between them the queue has
gained the one value that the second removes. -/
theorem blockedInputResumesExactlyOnce : Obligations.BlockedInputResumesExactlyOnce := by
  intro s dst v hwf hlegal hready hq hpc hcap hdec hd
  have hat : AtInstr (.input dst) s := ⟨hready, hpc, hcap, hdec⟩
  have hmax := Config.memCap_le_of_legal hlegal
  have hpc' : (s.pcAfter 2).toInt = s.pc.toInt + 2 := State.pcAfter_toInt (by rw [inRange64_iff]; omega)
  have hresume := (hat.waiting (max s.memLen (s.pc.toInt.toNat + 2)) [v]).stepReply_input_ok rfl hd
  exact ⟨_, _, _, hat.stepReply_input_of_empty hq, rfl, rfl, rfl, addInputs_one_of_empty v hlegal hq, rfl, hresume,
    rfl, hpc', Memory.read_write_same _ _ _ hwf,
    fun x hx => Memory.read_write_other _ _ _ _ hx⟩

end Sys2Proof.Machine
end

section
/-! The jumps family (42_jumps.md). JT and JF are one shape, `jumpIf`, at two tests; a jump that is taken (`TakenJump`)
has one end whichever of the two it is, and the statements about targets start from that end. A jump to itself is a
state (`SelfJump`) that its own step keeps, so RUN's loop meets it again at every fuel. -/

namespace Sys2Proof.Machine

/-! ### The ends of JT and JF (R140, R141) -/

/-- A word is true unless it is the word 0 (R140, R141). -/
theorem isTrue_eq (w : Word) : isTrue w = decide (w ≠ 0) := by
  have hzero : w.toInt = 0 ↔ w = 0 := BitVec.toInt_inj (y := (0 : Word))
  simp [isTrue, hzero]

/-- The completion of the shape of JT and JF: the test of the first operand picks the next pc (R23, R97). -/
theorem jumpIf_ok (c : Word → Bool) (w : Word) {a target : Param} {s : State} (ha : readable a s = true)
    (ht : readable target s = true) :
    jumpIf c w a target s = .next
      { s with
        memLen := lenAfter target s (lenAfter a s s.memLen)
        pc := if c (operandValue a s) then operandValue target s else s.pcAfter 3
        state := .running } := by
  simp [jumpIf_eq, ha, ht]

/-- Settles O28: the completion of the shape at the test of JT. -/
theorem jtJumpsWhenNonzero : Obligations.JtJumpsWhenNonzero := by
  intro a target s ha ht
  have hexec : exec (.jt a target) s = jumpIf isTrue (Instr.jt a target).word a target s := rfl
  rw [hexec, jumpIf_ok _ _ ha ht]
  simp only [isTrue_eq, decide_eq_true_eq]
  rfl

/-- Settles O29: the completion of the shape at the test of JF. -/
theorem jfJumpsWhenZero : Obligations.JfJumpsWhenZero := by
  intro a target s ha ht
  have hexec : exec (.jf a target) s = jumpIf (fun x => !isTrue x) (Instr.jf a target).word a target s := rfl
  rw [hexec, jumpIf_ok _ _ ha ht]
  simp only [isTrue_eq, ne_eq, decide_not, Bool.not_not, decide_eq_true_eq]
  rfl

/-! ### A jump that is taken, and its target (R22, R51, R142) -/

/-- `i` is a JT or JF with these operands, and in `s` its first operand makes it jump. -/
def TakenJump (i : Instr) (a target : Param) (s : State) : Prop :=
  i = .jt a target ∧ operandValue a s ≠ 0 ∨ i = .jf a target ∧ operandValue a s = 0

section Taken

variable {i : Instr} {a target : Param} {s : State}

/-- A taken jump loads its target, whatever it is, into the pc (R142). -/
theorem TakenJump.exec_eq (h : TakenJump i a target s) (ha : readable a s = true) (ht : readable target s = true) :
    exec i s = .next
      { s with
        memLen := lenAfter target s (lenAfter a s s.memLen)
        pc := operandValue target s
        state := .running } := by
  rcases h with ⟨rfl, hne⟩ | ⟨rfl, heq⟩
  · rw [jtJumpsWhenNonzero a target s ha ht, if_pos hne]
  · rw [jfJumpsWhenZero a target s ha ht, if_pos heq]

theorem TakenJump.length_eq (h : TakenJump i a target s) : i.length = 3 := by
  rcases h with ⟨rfl, -⟩ | ⟨rfl, -⟩ <;> rfl

/-- A jump waits for no queue (R97). -/
theorem TakenJump.blockedBy_eq (h : TakenJump i a target s) (t : State) : blockedBy i t = none := by
  rcases h with ⟨rfl, -⟩ | ⟨rfl, -⟩ <;> rfl

/-- What a jump changes leaves a ready state ready. -/
theorem ready_jumped (h : ready s = true) (L : Nat) (npc : Word) :
    ready { s with memLen := L, pc := npc, state := .running } = true := by
  obtain ⟨hloaded, hnone, -⟩ := (ready_iff s).1 h
  exact (ready_iff _).2 ⟨hloaded, hnone, by simp⟩

end Taken

/-- An address that no cell lists reads 0 (R57). -/
theorem Memory.read_of_unlisted {m : Memory} {a : Nat} (h : ∀ c ∈ m, c.1 ≠ a) : m.read a = unlistedWord := by
  induction m with
  | nil => rfl
  | cons c rest ih =>
    obtain ⟨hc, hrest⟩ := List.forall_mem_cons.1 h
    rw [Memory.read, if_neg hc.symm]
    exact ih hrest

/-- Under the invariant an address at or above the memory's length reads 0 (R30, R57). -/
theorem Invariant.read_of_memLen_le {s : State} (hs : Invariant s) {a : Nat} (h : s.memLen ≤ a) :
    s.mem.read a = unlistedWord :=
  Memory.read_of_unlisted fun c hc => (lt_of_lt_of_le (hs.below c hc) h).ne

/-- A pc at or above the memory's length and below MEM_CAP fetches the word 0, which is no instruction (R51, R87). -/
theorem step_of_memLen_le_pc {s : State} (hs : Invariant s) (hready : ready s = true)
    (hlen : (s.memLen : Int) ≤ s.pc.toInt) (hcap : s.pc.toInt < s.cfg.memCap) :
    step s = .next { s with memLen := s.pc.toInt.toNat + 1, fault := ⟨.invalidOpcode, s.pc, 0⟩ } := by
  have hword : s.mem.read s.pc.toInt.toNat = 0 := hs.read_of_memLen_le (by omega)
  have hillegal : decodeHead 0 = .error .unknownOpcode := by decide
  have hmax : max s.memLen (s.pc.toInt.toNat + 1) = s.pc.toInt.toNat + 1 := by omega
  rw [illegalWordIsLatched s hready (by omega) hcap (.inl ⟨_, hword ▸ hillegal⟩), hword, hmax]

/-- Settles O30: the state the jump leaves is ready and meets the invariant, so the front end's ends tell its step. -/
theorem illegalTargetFailsAtTheNextFetch : Obligations.IllegalTargetFailsAtTheNextFetch := by
  intro a target s i hinv hready ha ht (htaken : TakenJump i a target s)
  have hexec := htaken.exec_eq ha ht
  have hjumped := ready_jumped hready (lenAfter target s (lenAfter a s s.memLen)) (operandValue target s)
  have hkept := ((State.inv_iff s).1 hinv).execEnd hready (exec_cases hexec)
  obtain ⟨hneg, hcap⟩ := fetchAtAnIllegalPcIsLatched _ hjumped
  exact ⟨_, hexec, rfl, rfl, hneg, hcap, step_of_memLen_le_pc hkept hjumped⟩

/-! ### A jump to itself (R143, R192, R214) -/

/-- A state whose next STEP runs a taken jump to the pc it stands at. -/
structure SelfJump (i : Instr) (a target : Param) (s : State) : Prop where
  atInstr : AtInstr i s
  taken : TakenJump i a target s
  first : readable a s = true
  second : readable target s = true
  toItself : operandValue target s = s.pc

namespace SelfJump

variable {i : Instr} {a target : Param} {s : State}

/-- A jump to itself does not depend on what a jump changes: it stores nothing (R143). -/
theorem running (h : SelfJump i a target s) (L : Nat) :
    SelfJump i a target { s with memLen := L, state := .running } := by
  obtain ⟨⟨hready, hpc, hcap, hdec⟩, htaken, ha, ht, hself⟩ := h
  exact ⟨⟨ready_jumped hready L s.pc, hpc, hcap, hdec⟩, htaken, ha, ht, hself⟩

/-- STEP at a jump to itself progresses to a jump to itself. -/
theorem exists_stepReply (h : SelfJump i a target s) :
    ∃ u, stepReply s = .next (.progressed .running, u) ∧ SelfJump i a target u := by
  obtain ⟨-, hnone, -⟩ := (ready_iff s).1 h.atInstr.ready
  have htaken : TakenJump i a target { s with memLen := max s.memLen (s.pc.toInt.toNat + i.length) } := h.taken
  have hexec := htaken.exec_eq h.first h.second
  rw [operandValue_grown, h.toItself] at hexec
  have hstep := stepReply_of_fetched h.atInstr.ready h.atInstr.fetched (htaken.blockedBy_eq _) hexec hnone
  exact ⟨_, hstep, h.running _⟩

theorem runLoop_eq_none (h : SelfJump i a target s) (fuel : Nat) : runLoop fuel s = none := by
  induction fuel generalizing s with
  | zero => rfl
  | succ fuel ih =>
    obtain ⟨u, hstep, hu⟩ := h.exists_stepReply
    simp only [runLoop, hstep]
    exact ih hu

end SelfJump

/-- RUN of a ready state is its loop (R192). -/
theorem run_of_ready {s : State} (hready : ready s = true) (fuel : Nat) : run fuel s = runLoop fuel s := by
  obtain ⟨hloaded, hnone, hrun⟩ := (ready_iff s).1 hready
  simp [run, hloaded, hnone, hrun]

/-- Settles O31: RUN is its loop, and the loop ends for no fuel at a jump to itself. -/
theorem jumpToItselfNeverReturns : Obligations.JumpToItselfNeverReturns := by
  intro s i a target hready hpc hcap hdec (htaken : TakenJump i a target s) ha ht hself fuel
  have hlen := htaken.length_eq
  have hat : AtInstr i s := ⟨hready, hpc, by rwa [hlen], by rwa [hlen]⟩
  have hjump : SelfJump i a target s := ⟨hat, htaken, ha, ht, hself⟩
  rw [run_of_ready hready, hjump.runLoop_eq_none]

end Sys2Proof.Machine
end

section
/-! The comparison family (43_compare.md). LT and EQ are one shape, `storeCondition`, at two conditions: its completion
and the word it leaves at its destination are proved once, for any condition, and each statement is its case at the
signed comparison and at the equality. -/

namespace Sys2Proof.Machine

/-- LT is the shape at the signed comparison (R150, R186). -/
theorem exec_lt (a b dst : Param) (s : State) :
    exec (.lt a b dst) s = storeCondition lessThan (Instr.lt a b dst).word a b dst s := rfl

/-- EQ is the shape at the equality (R151, R186). -/
theorem exec_eq (a b dst : Param) (s : State) :
    exec (.eq a b dst) s = storeCondition equals (Instr.eq a b dst).word a b dst s := rfl

/-! ### The conditions and the word stored for one (R150 to R152) -/

theorem lessThan_iff (x y : Word) : lessThan x y = true ↔ x.toInt < y.toInt := decide_eq_true_iff

/-- Two words are the same integer only where they are the same word. -/
theorem equals_iff (x y : Word) : equals x y = true ↔ x = y := decide_eq_true_iff.trans BitVec.toInt_inj

theorem boolWord_zero_or_one (c : Bool) : boolWord c = 0 ∨ boolWord c = 1 := by cases c <;> decide

theorem boolWord_eq_one_iff (c : Bool) : boolWord c = 1 ↔ c = true := by cases c <;> decide

/-! ### The shape of LT and EQ (R97, R152) -/

section Shape

variable {c : Word → Word → Bool} {a b dst : Param} {s : State}

/-- The completion of the shape: no check stands between the operands and the store (R152). -/
theorem storeCondition_ok (w : Word) (ha : readable a s = true) (hb : readable b s = true)
    (hd : writable dst s = true) :
    storeCondition c w a b dst s = .next
      { s with
        mem := s.mem.write (destination dst s) (boolWord (c (operandValue a s) (operandValue b s)))
        memLen := lenAfter dst s (lenAfter b s (lenAfter a s s.memLen))
        pc := s.pcAfter 4
        state := .running } := by
  simp [storeCondition_eq, ha, hb, hd]

/-- What the shape leaves at its destination is 0 or 1, and 1 exactly where the condition `P` that `c` decides holds
of the operand values before the instruction; the latch is kept (R152). -/
theorem storeCondition_read_destination {P : Prop} (w : Word) (hwf : s.mem.wf = true) (ha : readable a s = true)
    (hb : readable b s = true) (hd : writable dst s = true) (hc : c (operandValue a s) (operandValue b s) = true ↔ P) :
    ∃ t, storeCondition c w a b dst s = .next t ∧ t.fault = s.fault
      ∧ (t.mem.read (destination dst s) = 0 ∨ t.mem.read (destination dst s) = 1)
      ∧ (t.mem.read (destination dst s) = 1 ↔ P) := by
  refine ⟨_, storeCondition_ok w ha hb hd, rfl, ?_⟩
  rw [Memory.read_write_same _ _ _ hwf]
  exact ⟨boolWord_zero_or_one _, (boolWord_eq_one_iff _).trans hc⟩

end Shape

/-- Settles O18: the completion of the shape at the signed comparison. -/
theorem ltStoresTheSignedComparison : Obligations.LtStoresTheSignedComparison := by
  intro a b dst s ha hb hd
  rw [exec_lt, storeCondition_ok _ ha hb hd]
  simp only [boolWord, lessThan_iff]
  rfl

/-- Settles O19: the completion of the shape at the equality; the words are compared as integers (`equals_iff`). -/
theorem eqStoresTheEquality : Obligations.EqStoresTheEquality := by
  intro a b dst s ha hb hd
  rw [exec_eq, storeCondition_ok _ ha hb hd]
  simp only [boolWord, equals_iff]
  rfl

/-- Settles O20: the word the shape leaves at its destination, at the signed comparison and at the equality. -/
theorem comparisonsWriteZeroOrOne : Obligations.ComparisonsWriteZeroOrOne := by
  intro a b dst s hwf ha hb hd
  rw [exec_lt, exec_eq]
  exact ⟨storeCondition_read_destination _ hwf ha hb hd (lessThan_iff _ _),
    storeCondition_read_destination _ hwf ha hb hd (equals_iff _ _)⟩

end Sys2Proof.Machine
end

section
/-! The relative base family (44_relative_base.md). Where the operand of ARB resolves, ARB is the overflow check on
rb + a (R160, R161); the statements are the two ends of that check. -/

namespace Sys2Proof.Machine

/-- A readable operand is read with the old rb; what is left of ARB is the check on the exact sum, in the state grown
over the operand (R160, R161). -/
theorem exec_arb_of_readable {a : Param} {s : State} (ha : readable a s = true) :
    exec (.arb a) s =
      inRangeOrRaise (s.rb.toInt + (operandValue a s).toInt) (Instr.arb a).word
        { s with memLen := lenAfter a s s.memLen }
        fun v t => .next (({ t with rb := v } : State).advance 2) := by
  simp only [exec, execArb, readOperand_ok ha, Access.orRaise_ok]

/-- Settles O32: the check passes, and the commit is rb and the pc after two words. -/
theorem arbAddsToTheRelativeBase : Obligations.ArbAddsToTheRelativeBase := by
  intro a s ha hr
  rw [exec_arb_of_readable ha, inRangeOrRaise_ok _ _ _ hr]
  rfl

/-- Settles O33: the check raises before the commit, so rb and pc are kept, and the record names the pc. -/
theorem arbOverflowIsLatched : Obligations.ArbOverflowIsLatched := by
  intro a s ha hr
  rw [exec_arb_of_readable ha, inRangeOrRaise_error _ _ _ hr]
  simp only [raise, State.latch, latchAddr_word]

end Sys2Proof.Machine
end

section
/-! The halt family (45_halt.md). HLT touches no operand and raises nothing: its commit, the pc after one word with the
machine Stopped (R171), is the whole instruction. -/

namespace Sys2Proof.Machine

/-- HLT has one end, its commit, in every state (R170, R171, R186). -/
theorem exec_hlt (s : State) : exec .hlt s = .next { s with pc := s.pcAfter 1, state := .stopped } := rfl

/-- The advance over one word is the successor of the pc (R23). -/
theorem State.pcAfter_one (s : State) : s.pcAfter 1 = s.pc + 1 := rfl

/-- Settles O34: HLT is its commit, and the pc after the Halt word is `pc + 1` (the spec's decision D22). -/
theorem hltStopsAfterItsWord : Obligations.HltStopsAfterItsWord := by
  intro s
  rw [exec_hlt, State.pcAfter_one]

end Sys2Proof.Machine
end

section
/-! The controller family (46_controller.md). What STEP answers is read once (`StepAnswer`); where steps that progress
lead is what RUN and RUN_UNTIL_OUTPUT answer (`run_iff`, `untilOutputLoop_iff`). Along steps the input queue only loses
values at its front and the output queue only gains values at its end (`QueuesAdvance`). -/

namespace Sys2Proof.Machine

/-! ### What STEP answers (R183, R186 to R190) -/

/-- How STEP of `s` ends: its response and the state it leaves, with what the two say of each other. -/
inductive StepAnswer (s : State) : Response → State → Prop where
  | notLoaded (hidle : ready s = false) : StepAnswer s .notLoaded s
  | stoppedError (hidle : ready s = false) : StepAnswer s .stoppedError s
  | fatal (f : FaultRecord) (t : State) (hfault : t.fault = f) (herror : f.kind ≠ .none) : StepAnswer s (.fatal f) t
  | noInput (L : Nat) (hready : ready s = true) (hq : s.inQ = []) :
    StepAnswer s (.blocked .noInput) { s with memLen := L, state := .waitingForInput }
  | outputFull (i : Instr) (L : Nat) (hready : ready s = true) (hfull : outFull s = true) (hop : i.opcode = .output)
    (hfetch : fetchInstr s = .fetched i { s with memLen := L }) :
    StepAnswer s (.blocked .outputFull) { s with memLen := L }
  | progressed (vm : VmState) (t : State) (hready : ready s = true) (hcommit : Committed s t) (hvm : t.state = vm) :
    StepAnswer s (.progressed vm) t

section Answers

variable {s t : State} {q : Response}

theorem stepReply_answer (h : stepReply s = .next (q, t)) : StepAnswer s q t := by
  rcases stepReply_cases s with ⟨hidle, r, hr, hs⟩ | ⟨_, u, hu, hs⟩ | ⟨hready, hq, i, L, _, _, _, _, hs⟩
    | ⟨hready, hfull, i, L, _, _, hop, hfetch, hs⟩ | ⟨hready, u, hu, hs⟩ <;> cases hs.symm.trans h
  · rcases hr with rfl | ⟨rfl, hk⟩ | rfl
    · exact .notLoaded hidle
    · exact .fatal _ _ rfl hk
    · exact .stoppedError hidle
  · obtain ⟨k, a, w, L, hk, _, _, rfl⟩ := hu.eq
    exact .fatal _ _ rfl hk
  · exact .noInput L hready hq
  · exact .outputFull i L hready hfull hop hfetch
  · exact .progressed _ _ hready hu rfl

/-- A step that stops leaves a final state (R171, R213). -/
theorem final_of_stepReply (h : stepReply s = .next (.progressed .stopped, t)) : t.final = true := by
  cases stepReply_answer h with
  | progressed _ _ hready hcommit hvm =>
    obtain ⟨hloaded, hnone, -⟩ := (ready_iff s).1 hready
    simp [State.final, hcommit.loaded, hcommit.fault, hloaded, hnone, hvm]

/-- A state that has decoded an Output and found the queue full is blocked on output (R131, R213). -/
theorem blockedOnOutput_of_fetched {i : Instr} (hready : ready s = true) (hfull : outFull s = true)
    (hop : i.opcode = .output) (hfetch : fetchInstr s = .fetched i t) : t.blockedOnOutput = true := by
  obtain ⟨hpc, hd, lits, L, hdec, rfl, rfl, -⟩ := fetchInstr_fetched_cases hfetch
  obtain ⟨-, -, hrun⟩ := (ready_iff s).1 hready
  rw [Head.instr_opcode] at hop
  simp [State.blockedOnOutput, State.final, hrun, hpc, hdec, hop, hfull]

/-- A state that is not ready is left as it is (R186, R189, R190, R212). -/
theorem step_of_not_ready (h : ready s = false) : step s = .next s := by simp [step, h]

/-- The three ways not to be ready, in the gate's order (R186). -/
theorem not_ready_cases (h : ready s = false) :
    s.loaded = false ∨ (s.loaded = true ∧ s.fault.kind ≠ .none) ∨
      (s.loaded = true ∧ s.fault.kind = .none ∧ s.state = .stopped) := by
  cases hloaded : s.loaded with
  | false => exact .inl rfl
  | true =>
    by_cases hnone : s.fault.kind = .none
    · exact .inr (.inr ⟨rfl, hnone, by simpa [ready, hloaded, hnone] using h⟩)
    · exact .inr (.inl ⟨rfl, hnone⟩)

theorem stepReply_of_not_loaded (hloaded : s.loaded = false) : stepReply s = .next (.notLoaded, s) := by
  rw [stepReply_eq (step_of_not_ready (by simp [ready, hloaded]))]
  simp [stepResponse, hloaded]

theorem stepReply_of_faulted (hloaded : s.loaded = true) (hfault : s.fault.kind ≠ .none) :
    stepReply s = .next (.fatal s.fault, s) := by
  rw [stepReply_eq (step_of_not_ready (by simp [ready, hfault]))]
  simp [stepResponse, hloaded, hfault]

theorem stepReply_of_stopped (hloaded : s.loaded = true) (hnone : s.fault.kind = .none)
    (hstopped : s.state = .stopped) : stepReply s = .next (.stoppedError, s) := by
  rw [stepReply_eq (step_of_stopped hstopped)]
  simp [stepResponse, hloaded, hnone, hstopped]

end Answers

/-- Settles O42: STEP always answers, with the state `step` leaves. -/
theorem everyStateHasANextState : Obligations.EveryStateHasANextState := by
  intro s
  obtain ⟨q, t, h⟩ := exists_stepReply s
  exact ⟨t, step_of_stepReply h⟩

/-- Settles O45: the answers of a ready state, case by case. -/
theorem stepResponseTellsTheOutcome : Obligations.StepResponseTellsTheOutcome := by
  intro s hready
  obtain ⟨hloaded, hnone, -⟩ := (ready_iff s).1 hready
  obtain ⟨q, t, h⟩ := exists_stepReply s
  refine ⟨q, t, h, step_of_stepReply h, ?_⟩
  cases stepReply_answer h with
  | notLoaded hidle => simp [hready] at hidle
  | stoppedError hidle => simp [hready] at hidle
  | fatal f _ hfault herror => exact .inl ⟨hfault ▸ herror, hfault ▸ rfl⟩
  | noInput _ _ _ => exact .inr ⟨hnone, .inr (.inr (.inl ⟨rfl, rfl⟩))⟩
  | outputFull _ _ _ _ _ _ => exact .inr ⟨hnone, .inr (.inr (.inr ⟨rfl, rfl⟩))⟩
  | progressed vm _ _ hcommit hvm =>
    refine .inr ⟨hcommit.fault ▸ hnone, ?_⟩
    subst hvm
    rcases hcommit.state with hstate | hstate
    · exact .inl ⟨hstate ▸ rfl, hstate⟩
    · exact .inr (.inl ⟨hstate ▸ rfl, hstate⟩)

/-! ### The queues over a step (R130, R131, R202, R204) -/

/-- The front input is taken and stored at the destination `dst`. -/
def TakesInput (dst : Param) (s t : State) : Prop :=
  ∃ v, s.inQ = v :: t.inQ ∧ t.mem = s.mem.write (destination dst s) v ∧ t.fault = s.fault

/-- The value of the operand `a` is added at the end of the output queue. -/
def AddsOutput (a : Param) (s t : State) : Prop := t.outQ = s.outQ ++ [operandValue a s] ∧ t.fault = s.fault

/-- IN takes the front input, unless it finds none or latches an error. -/
theorem exec_input_queues {dst : Param} {s t : State} (h : exec (.input dst) s = .next t) :
    t.outQ = s.outQ ∧ (t.inQ = s.inQ ∧ (s.inQ = [] ∨ t.fault.kind ≠ .none) ∨ TakesInput dst s t) := by
  cases hq : s.inQ with
  | nil =>
    rw [exec_input_of_empty dst hq] at h
    cases h
    exact ⟨rfl, .inl ⟨hq, .inl rfl⟩⟩
  | cons v rest =>
    cases hd : writable dst s with
    | false =>
      rw [exec_input_error (by simp [hq]) hd] at h
      cases h
      exact ⟨rfl, .inl ⟨hq, .inr (writeError_ne_none dst s)⟩⟩
    | true =>
      rw [exec_input_ok hq hd] at h
      cases h
      exact ⟨rfl, .inr ⟨v, hq, rfl, rfl⟩⟩

/-- OUT adds its operand's value, unless it finds no room or latches an error. -/
theorem exec_output_queues {a : Param} {s t : State} (h : exec (.output a) s = .next t) :
    t.inQ = s.inQ ∧ (t.outQ = s.outQ ∧ (outFull s = true ∨ t.fault.kind ≠ .none) ∨ AddsOutput a s t) := by
  cases hfull : outFull s with
  | true =>
    rw [exec_output_of_full a hfull] at h
    cases h
    exact ⟨rfl, .inl ⟨rfl, .inl rfl⟩⟩
  | false =>
    cases ha : readable a s with
    | false =>
      cases (execOutput_error hfull ha).symm.trans h
      exact ⟨rfl, .inl ⟨rfl, .inr (readError_ne_none a s)⟩⟩
    | true =>
      rw [exec_output_ok hfull ha] at h
      cases h
      exact ⟨rfl, .inr ⟨rfl, rfl⟩⟩

/-- No instruction but IN and OUT touches a queue. -/
theorem exec_other_queues {i : Instr} {s t : State} (hin : ∀ dst, i ≠ .input dst) (hout : ∀ a, i ≠ .output a)
    (h : exec i s = .next t) : t.inQ = s.inQ ∧ t.outQ = s.outQ := by
  have hstore {a b dst : Param} (hi : i ∈ [Instr.add a b dst, .mul a b dst, .lt a b dst, .eq a b dst]) :
      t.inQ = s.inQ ∧ t.outQ = s.outQ := by
    cases exec_storeEnd hi h <;> exact ⟨rfl, rfl⟩
  have hother {a target : Param} (hi : i ∈ [Instr.output a, .jt a target, .jf a target, .arb a, .hlt]) :
      t.inQ = s.inQ ∧ t.outQ = s.outQ := by
    cases exec_nonStoreEnd hi h with
    | error => exact ⟨rfl, rfl⟩
    | blocked => exact ⟨rfl, rfl⟩
    | committed _ _ _ _ _ _ hq => exact ⟨rfl, hq (hout a)⟩
  cases i with
  | input dst => exact absurd rfl (hin dst)
  | output a => exact absurd rfl (hout a)
  | add a b dst | mul a b dst | lt a b dst | eq a b dst => exact hstore (a := a) (b := b) (dst := dst) (by simp)
  | jt a target | jf a target => exact hother (a := a) (target := target) (by simp)
  | arb a => exact hother (a := a) (target := a) (by simp)
  | hlt => exact hother (a := .pos 0) (target := .pos 0) (by simp)

/-- What a fetched instruction may do to the queues. -/
structure QueueEffect (i : Instr) (s t : State) : Prop where
  inQ : t.inQ = s.inQ ∨ ∃ dst, i = .input dst ∧ TakesInput dst s t
  outQ : t.outQ = s.outQ ∨ ∃ a, i = .output a ∧ AddsOutput a s t

theorem exec_queueEffect {i : Instr} {s t : State} (h : exec i s = .next t) : QueueEffect i s t := by
  cases i with
  | input dst =>
    obtain ⟨hout, hin⟩ := exec_input_queues h
    exact ⟨hin.imp And.left fun htake => ⟨dst, rfl, htake⟩, .inl hout⟩
  | output a =>
    obtain ⟨hin, hout⟩ := exec_output_queues h
    exact ⟨.inl hin, hout.imp And.left fun hadd => ⟨a, rfl, hadd⟩⟩
  | add | mul | jt | jf | lt | eq | arb | hlt =>
    obtain ⟨hin, hout⟩ := exec_other_queues (by simp) (by simp) h
    exact ⟨.inl hin, .inl hout⟩

/-- A step leaves both queues, or has fetched the instruction whose effect on them it has (R202, R204). -/
theorem step_queueEffect {s t : State} (h : step s = .next t) :
    (t.inQ = s.inQ ∧ t.outQ = s.outQ) ∨ ∃ i u, fetchInstr s = .fetched i u ∧ QueueEffect i s t := by
  rcases step_cases s with ⟨_, hidle⟩ | ⟨_, u, hfatal, hu⟩ | ⟨_, i, L, _, _, hfetch, hexec⟩
  · cases hidle.symm.trans h
    exact .inl ⟨rfl, rfl⟩
  · cases hfatal.symm.trans h
    obtain ⟨k, a, w, L, _, _, _, rfl⟩ := hu.eq
    exact .inl ⟨rfl, rfl⟩
  · obtain ⟨hin, hout⟩ := exec_queueEffect (hexec.symm.trans h)
    exact .inr ⟨i, _, hfetch, hin, hout⟩

/-- A ready state that has fetched `i` steps as `i` does on a state that has only grown. -/
theorem exec_of_step {s t u : State} {i : Instr} (hready : ready s = true) (hfetch : fetchInstr s = .fetched i u)
    (h : step s = .next t) : ∃ L, exec i { s with memLen := L } = .next t := by
  obtain ⟨-, -, -, L, -, -, rfl, -⟩ := fetchInstr_fetched_cases hfetch
  exact ⟨L, (step_of_fetched hready hfetch).symm.trans h⟩

/-- From `s` to `t` inputs are only taken from the front and outputs only added at the end. -/
structure QueuesAdvance (s t : State) : Prop where
  inQ : t.inQ <:+ s.inQ
  outQ : s.outQ <+: t.outQ

namespace QueuesAdvance

variable {s t u : State}

theorem refl (s : State) : QueuesAdvance s s := ⟨List.suffix_rfl, List.prefix_rfl⟩

theorem trans (h : QueuesAdvance s t) (h' : QueuesAdvance t u) : QueuesAdvance s u :=
  ⟨h'.inQ.trans h.inQ, h.outQ.trans h'.outQ⟩

theorem of_step (h : step s = .next t) : QueuesAdvance s t := by
  rcases step_queueEffect h with ⟨hin, hout⟩ | ⟨i, u, _, hin, hout⟩
  · exact ⟨hin ▸ List.suffix_rfl, hout ▸ List.prefix_rfl⟩
  · constructor
    · rcases hin with hin | ⟨_, _, v, hin, _, _⟩
      · exact hin ▸ List.suffix_rfl
      · exact ⟨[v], hin.symm⟩
    · rcases hout with hout | ⟨a, _, hout, _⟩
      · exact hout ▸ List.prefix_rfl
      · exact ⟨_, hout.symm⟩

theorem of_stepsTo {n : Nat} (h : StepsTo n s t) : QueuesAdvance s t :=
  h.keeps (P := QueuesAdvance s) (fun _ _ hu hstep => hu.trans (.of_step hstep)) (.refl s)

theorem outQ_eq_nil (h : QueuesAdvance s t) (ht : t.outQ = []) : s.outQ = [] := List.prefix_nil.1 (ht ▸ h.outQ)

end QueuesAdvance

/-! ### RUN (R192, R193, R214) -/

theorem ProgressesTo.stepsTo {n : Nat} {s u : State} (h : ProgressesTo n s u) : StepsTo n s u := by
  induction n generalizing s with
  | zero => exact h
  | succ n ih =>
    obtain ⟨w, hw, htail⟩ := h
    exact ⟨w, step_of_stepReply hw, ih htail⟩

/-- One more step behind. -/
theorem StepsTo.snoc {n : Nat} {s u t : State} (h : StepsTo n s u) (hu : step u = .next t) : StepsTo (n + 1) s t := by
  induction n generalizing s with
  | zero =>
    cases h
    exact .one hu
  | succ n ih =>
    obtain ⟨w, hw, htail⟩ := h
    exact ⟨w, hw, ih htail⟩

/-- A step that progresses and does not stop leaves Running (R187). -/
theorem running_of_progressed {s u : State} {vm : VmState} (h : stepReply s = .next (.progressed vm, u))
    (hvm : vm ≠ .stopped) : vm = .running := by
  cases stepReply_answer h with
  | progressed _ _ _ hcommit hstate => exact hstate ▸ hcommit.state.resolve_right (hstate ▸ hvm)

/-- RUN's response where its last step's is `q` (R192). -/
inductive RunAnswer : Response → Response → Prop where
  | halted : RunAnswer (.progressed .stopped) .halted
  | response (q : Response) (hq : ∀ vm, q ≠ .progressed vm) : RunAnswer q q

/-- RUN's loop ends at a step that stops or does not progress. -/
theorem runLoop_of_answer {s t : State} {q r : Response} (fuel : Nat) (h : stepReply s = .next (q, t))
    (ha : RunAnswer q r) : runLoop (fuel + 1) s = some (.next (r, t)) := by
  cases ha with
  | halted => simp only [runLoop, h]
  | response _ hq =>
    cases q with
    | progressed vm => exact absurd rfl (hq vm)
    | _ => simp only [runLoop, h]

/-- RUN's loop answers where steps that progress, fewer than its fuel, lead to one that stops or does not progress. -/
theorem runLoop_iff {fuel : Nat} {s t : State} {r : Response} :
    runLoop fuel s = some (.next (r, t)) ↔
      ∃ n u q, n < fuel ∧ ProgressesTo n s u ∧ stepReply u = .next (q, t) ∧ RunAnswer q r := by
  induction fuel generalizing s with
  | zero => exact ⟨nofun, fun ⟨_, _, _, hn, _⟩ => absurd hn (Nat.not_lt_zero _)⟩
  | succ fuel ih =>
    constructor
    · intro h
      rcases runLoop_succ_cases h with ⟨hs, rfl⟩ | ⟨vm, w, hvm, hs, hrest⟩ | ⟨hr, hs⟩
      · exact ⟨0, s, _, fuel.succ_pos, rfl, hs, .halted⟩
      · obtain ⟨n, u, q, hn, hp, hq, ha⟩ := ih.1 hrest
        exact ⟨n + 1, u, q, Nat.succ_lt_succ hn, ⟨w, running_of_progressed hs hvm ▸ hs, hp⟩, hq, ha⟩
      · exact ⟨0, s, r, fuel.succ_pos, rfl, hs, .response r hr⟩
    · rintro ⟨n, u, q, hn, hp, hq, ha⟩
      cases n with
      | zero =>
        cases hp
        exact runLoop_of_answer fuel hq ha
      | succ n =>
        obtain ⟨w, hw, hp⟩ := hp
        simp only [runLoop, hw]
        exact ih.2 ⟨n, u, q, Nat.lt_of_succ_lt_succ hn, hp, hq, ha⟩

/-- A state that is not ready answers STEP with no progress. -/
theorem not_progressed_of_not_ready {s t : State} {q : Response} (hidle : ready s = false)
    (h : stepReply s = .next (q, t)) (vm : VmState) : q ≠ .progressed vm := by
  rintro rfl
  cases stepReply_answer h with
  | progressed _ _ hready _ _ => simp [hidle] at hready

/-- Only a ready state progresses, so no step that progresses leads on from another. -/
theorem ProgressesTo.eq_of_not_ready {n : Nat} {s u : State} (hidle : ready s = false) (h : ProgressesTo n s u) :
    u = s := by
  cases n with
  | zero => exact h
  | succ n =>
    obtain ⟨w, hw, _⟩ := h
    exact absurd rfl (not_progressed_of_not_ready hidle hw .running)

/-- The gate of RUN is STEP's (R189, R190, R193, R212). -/
theorem run_of_not_ready {s : State} (hidle : ready s = false) (fuel : Nat) : run fuel s = some (stepReply s) := by
  rcases not_ready_cases hidle with hloaded | ⟨hloaded, hfault⟩ | ⟨hloaded, hnone, hstopped⟩
  · simp [run, stepReply_of_not_loaded, hloaded]
  · simp [run, stepReply_of_faulted, hloaded, hfault]
  · simp [run, stepReply_of_stopped, hloaded, hnone, hstopped]

/-- What RUN answers, in every state: the answer of the step that ends its loop, or of its gate. -/
theorem run_iff {fuel : Nat} {s t : State} {r : Response} :
    run fuel s = some (.next (r, t)) ↔
      ∃ n u q, (n < fuel ∨ ready s = false) ∧ ProgressesTo n s u ∧ stepReply u = .next (q, t) ∧ RunAnswer q r := by
  cases hready : ready s with
  | true => simp only [run_of_ready hready, runLoop_iff, Bool.true_eq_false, or_false]
  | false =>
    rw [run_of_not_ready hready, Option.some_inj]
    constructor
    · intro h
      exact ⟨0, s, r, .inr rfl, rfl, h, .response r (not_progressed_of_not_ready hready h)⟩
    · rintro ⟨n, u, q, _, hp, hq, ha⟩
      cases hp.eq_of_not_ready hready
      cases ha with
      | halted => exact absurd rfl (not_progressed_of_not_ready hready hq .stopped)
      | response _ _ => exact hq

/-- Settles O11: STEP and RUN of a Stopped machine answer at the gate. -/
theorem stoppedStepChangesNothing : Obligations.StoppedStepChangesNothing := by
  intro s fuel hloaded hnone hstopped
  have hreply := stepReply_of_stopped hloaded hnone hstopped
  have hrun := run_of_not_ready (s := s) (by simp [ready, hstopped]) fuel
  rw [transact_of_loaded hloaded, transact_of_loaded hloaded]
  exact ⟨step_of_stopped hstopped, hreply, congrArg some hreply, hrun.trans (congrArg some hreply)⟩

/-! ### RUN_UNTIL_OUTPUT (R194 to R197, R214) -/

/-- RUN_UNTIL_OUTPUT's response and the state it leaves where its last step answers `q` and leaves `u` (R194, R197). -/
inductive UntilAnswer : Response → State → Response → State → Prop where
  | value (vm : VmState) (u : State) (v : Word) (rest : List Word) (hout : u.outQ = v :: rest) :
    UntilAnswer (.progressed vm) u (.value v) u.outPopFront
  | noMoreOutput (u : State) (hout : u.outQ = []) : UntilAnswer (.progressed .stopped) u .noMoreOutput u
  | response (q : Response) (u : State) (hq : ∀ vm, q ≠ .progressed vm) : UntilAnswer q u q u

/-- RUN_UNTIL_OUTPUT's loop ends at a step that leaves an output, stops or does not progress. -/
theorem untilOutputLoop_of_answer {s w t : State} {q r : Response} (fuel : Nat) (h : stepReply s = .next (q, w))
    (ha : UntilAnswer q w r t) : untilOutputLoop (fuel + 1) s = some (.next (r, t)) := by
  cases ha with
  | value _ _ _ _ hout => simp only [untilOutputLoop, h, hout]
  | noMoreOutput _ hout => simp only [untilOutputLoop, h, hout, if_true]
  | response _ _ hq =>
    cases q with
    | progressed vm => exact absurd rfl (hq vm)
    | _ => simp only [untilOutputLoop, h]

/-- RUN_UNTIL_OUTPUT's loop, begun with no output queued, answers where steps that progress and queue nothing, fewer
than its fuel, lead to one that ends it. -/
theorem untilOutputLoop_iff {fuel : Nat} {s t : State} {r : Response} (hs : s.outQ = []) :
    untilOutputLoop fuel s = some (.next (r, t)) ↔
      ∃ n u q w, n < fuel ∧ ProgressesTo n s u ∧ u.outQ = [] ∧ stepReply u = .next (q, w) ∧ UntilAnswer q w r t := by
  induction fuel generalizing s with
  | zero => exact ⟨nofun, fun ⟨_, _, _, _, hn, _⟩ => absurd hn (Nat.not_lt_zero _)⟩
  | succ fuel ih =>
    constructor
    · intro h
      rcases untilOutputLoop_succ_cases h with ⟨vm, w, v, rest, hq, hout, rfl, rfl⟩ | ⟨hq, hout, rfl⟩
        | ⟨vm, w, hvm, hw, hout, hrest⟩ | ⟨hr, hq⟩
      · exact ⟨0, s, _, w, fuel.succ_pos, rfl, hs, hq, .value vm w v rest hout⟩
      · exact ⟨0, s, _, t, fuel.succ_pos, rfl, hs, hq, .noMoreOutput t hout⟩
      · obtain ⟨n, u, q, x, hn, hp, hu, hq, ha⟩ := (ih hout).1 hrest
        exact ⟨n + 1, u, q, x, Nat.succ_lt_succ hn, ⟨w, running_of_progressed hw hvm ▸ hw, hp⟩, hu, hq, ha⟩
      · exact ⟨0, s, r, t, fuel.succ_pos, rfl, hs, hq, .response r t hr⟩
    · rintro ⟨n, u, q, x, hn, hp, hu, hq, ha⟩
      cases n with
      | zero =>
        cases hp
        exact untilOutputLoop_of_answer fuel hq ha
      | succ n =>
        obtain ⟨w, hw, hp⟩ := hp
        have hout : w.outQ = [] := (QueuesAdvance.of_stepsTo hp.stepsTo).outQ_eq_nil hu
        simp only [untilOutputLoop, hw, hout, reduceCtorEq, if_false]
        exact (ih hout).2 ⟨n, u, q, x, Nat.lt_of_succ_lt_succ hn, hp, hu, hq, ha⟩

theorem State.outPopFront_eq {s : State} {v : Word} {rest : List Word} (h : s.outQ = v :: rest) :
    s.outPopFront = { s with outQ := rest } := by
  simp [State.outPopFront, h]

/-- With a value buffered, no fault and a program loaded, the oldest value is handed over (R195, R196). -/
theorem runUntilOutput_of_buffered {s : State} {v : Word} {rest : List Word} (fuel : Nat) (hloaded : s.loaded = true)
    (hnone : s.fault.kind = .none) (hout : s.outQ = v :: rest) :
    runUntilOutput fuel s = some (.next (.value v, { s with outQ := rest })) := by
  simp [runUntilOutput, hloaded, hnone, hout, State.outPopFront_eq hout]

/-- With a fault latched RUN_UNTIL_OUTPUT answers as STEP does, whatever is buffered (R190). -/
theorem runUntilOutput_of_faulted {s : State} (fuel : Nat) (hloaded : s.loaded = true)
    (hfault : s.fault.kind ≠ .none) : runUntilOutput fuel s = some (stepReply s) := by
  simp [runUntilOutput, stepReply_of_faulted, hloaded, hfault]

/-- Stopped with nothing buffered, RUN_UNTIL_OUTPUT answers as STEP does (R189). -/
theorem runUntilOutput_of_stopped {s : State} (fuel : Nat) (hloaded : s.loaded = true) (hnone : s.fault.kind = .none)
    (hstopped : s.state = .stopped) (hout : s.outQ = []) : runUntilOutput fuel s = some (stepReply s) := by
  simp [runUntilOutput, stepReply_of_stopped, hloaded, hnone, hstopped, hout]

/-- Settles O57: a buffered value is handed over before the loop is entered. -/
theorem runUntilOutputReturnsABufferedValue : Obligations.RunUntilOutputReturnsABufferedValue := by
  intro s fuel v rest hloaded hnone hout
  rw [transact_of_loaded hloaded]
  exact runUntilOutput_of_buffered fuel hloaded hnone hout

/-- The gate of RUN_UNTIL_OUTPUT: a buffered value of a machine with no fault, STEP's gate, or the loop (R194 to
R197). -/
theorem runUntilOutput_gate (s : State) :
    (∃ v rest, s.outQ = v :: rest ∧
      ∀ fuel, runUntilOutput fuel s = some (.next (.value v, { s with outQ := rest }))) ∨
    (ready s = false ∧ ∀ fuel, runUntilOutput fuel s = some (stepReply s)) ∨
    (ready s = true ∧ s.outQ = [] ∧ ∀ fuel, runUntilOutput fuel s = untilOutputLoop fuel s) := by
  cases hready : ready s with
  | true =>
    obtain ⟨hloaded, hnone, hrun⟩ := (ready_iff s).1 hready
    cases hout : s.outQ with
    | cons v rest => exact .inl ⟨v, rest, rfl, fun fuel => runUntilOutput_of_buffered fuel hloaded hnone hout⟩
    | nil => exact .inr (.inr ⟨rfl, rfl, fun fuel => by simp [runUntilOutput, hloaded, hnone, hrun, hout]⟩)
  | false =>
    rcases not_ready_cases hready with hloaded | ⟨hloaded, hfault⟩ | ⟨hloaded, hnone, hstopped⟩
    · exact .inr (.inl ⟨rfl, fun fuel => by simp [runUntilOutput, stepReply_of_not_loaded, hloaded]⟩)
    · exact .inr (.inl ⟨rfl, fun fuel => runUntilOutput_of_faulted fuel hloaded hfault⟩)
    · cases hout : s.outQ with
      | cons v rest => exact .inl ⟨v, rest, rfl, fun fuel => runUntilOutput_of_buffered fuel hloaded hnone hout⟩
      | nil => exact .inr (.inl ⟨rfl, fun fuel => runUntilOutput_of_stopped fuel hloaded hnone hstopped hout⟩)

/-- Where RUN_UNTIL_OUTPUT's answer comes from: a value buffered before it, or a step that steps lead to. -/
theorem runUntilOutput_answer {fuel : Nat} {s t : State} {r : Response}
    (h : runUntilOutput fuel s = some (.next (r, t))) :
    (∃ v rest, s.outQ = v :: rest ∧ r = .value v ∧ t = { s with outQ := rest }) ∨
    ∃ n u q w, StepsTo n s u ∧ stepReply u = .next (q, w) ∧ UntilAnswer q w r t := by
  rcases runUntilOutput_gate s with ⟨v, rest, hout, heq⟩ | ⟨hidle, heq⟩ | ⟨_, hout, heq⟩ <;> rw [heq] at h
  · cases h
    exact .inl ⟨v, rest, hout, rfl, rfl⟩
  · have hq := Option.some.inj h
    exact .inr ⟨0, s, r, t, rfl, hq, .response r t (not_progressed_of_not_ready hidle hq)⟩
  · obtain ⟨n, u, q, w, _, hp, _, hq, ha⟩ := (untilOutputLoop_iff hout).1 h
    exact .inr ⟨n, u, q, w, hp.stepsTo, hq, ha⟩

/-- More fuel changes no answer (R214). -/
theorem runUntilOutput_add {fuel : Nat} {s t : State} {r : Response} (h : runUntilOutput fuel s = some (.next (r, t)))
    (more : Nat) : runUntilOutput (fuel + more) s = some (.next (r, t)) := by
  rcases runUntilOutput_gate s with ⟨v, rest, _, heq⟩ | ⟨_, heq⟩ | ⟨_, hout, heq⟩ <;> rw [heq] at h ⊢
  · exact h
  · exact h
  · obtain ⟨n, u, q, w, hn, hrest⟩ := (untilOutputLoop_iff hout).1 h
    exact (untilOutputLoop_iff hout).2 ⟨n, u, q, w, Nat.lt_add_right more hn, hrest⟩

/-- RUN_UNTIL_OUTPUT does answer: where steps that progress lead to a state with no output queued, as the step there
ends it. -/
theorem runUntilOutput_of_progressesTo {n fuel : Nat} {s u w t : State} {q r : Response} (hp : ProgressesTo n s u)
    (hn : n < fuel) (hout : u.outQ = []) (hq : stepReply u = .next (q, w)) (ha : UntilAnswer q w r t) :
    runUntilOutput fuel s = some (.next (r, t)) := by
  have hs : s.outQ = [] := (QueuesAdvance.of_stepsTo hp.stepsTo).outQ_eq_nil hout
  rcases runUntilOutput_gate s with ⟨v, rest, hcons, _⟩ | ⟨hidle, heq⟩ | ⟨_, _, heq⟩
  · simp [hs] at hcons
  · cases hp.eq_of_not_ready hidle
    have hno := not_progressed_of_not_ready hidle hq
    cases ha with
    | value vm => exact absurd rfl (hno vm)
    | noMoreOutput => exact absurd rfl (hno .stopped)
    | response => rw [heq, hq]
  · rw [heq]
    exact (untilOutputLoop_iff hs).2 ⟨n, u, q, w, hn, hp, hout, hq, ha⟩

/-- Steps lead to the state RUN_UNTIL_OUTPUT leaves, but for the value it hands over (R194, R195). -/
theorem runUntilOutput_stepsTo {fuel : Nat} {s t : State} {r : Response}
    (h : runUntilOutput fuel s = some (.next (r, t))) :
    ∃ n u, StepsTo n s u ∧
      ((∃ v, r = .value v ∧ u.outQ = v :: t.outQ ∧ t = { u with outQ := t.outQ }) ∨ (∀ v, r ≠ .value v) ∧ t = u) := by
  rcases runUntilOutput_answer h with ⟨v, rest, hout, rfl, rfl⟩ | ⟨n, u, q, w, hn, hq, ha⟩
  · exact ⟨0, s, rfl, .inl ⟨v, rfl, hout, rfl⟩⟩
  · refine ⟨n + 1, w, hn.snoc (step_of_stepReply hq), ?_⟩
    cases ha with
    | value vm _ v rest hout =>
      rw [State.outPopFront_eq hout]
      exact .inl ⟨v, rfl, hout, rfl⟩
    | noMoreOutput => exact .inr ⟨nofun, rfl⟩
    | response =>
      refine .inr ⟨?_, rfl⟩
      rintro v rfl
      cases stepReply_answer hq

/-! ### RUN and RUN_UNTIL_OUTPUT end as they say (R192, R194, R197, R213, R214) -/

/-- What a response says of the state it comes with is true of that state. -/
structure Truthful (r : Response) (t : State) : Prop where
  halted : r = .halted → t.final = true
  noMoreOutput : r = .noMoreOutput → t.final = true ∧ t.outQ = []
  noInput : r = .blocked .noInput → t.blockedOnInput = true
  outputFull : r = .blocked .outputFull → t.blockedOnOutput = true
  fatal : ∀ f, r = .fatal f → t.fault = f ∧ f.kind ≠ .none

theorem Truthful.of_stepReply {s t : State} {q : Response} (h : stepReply s = .next (q, t)) : Truthful q t := by
  cases stepReply_answer h with
  | notLoaded | stoppedError | progressed => exact ⟨nofun, nofun, nofun, nofun, nofun⟩
  | fatal f _ hfault herror => exact ⟨nofun, nofun, nofun, nofun, fun g hg => by cases hg; exact ⟨hfault, herror⟩⟩
  | noInput L _ hq => exact ⟨nofun, nofun, fun _ => by simp [State.blockedOnInput, hq], nofun, nofun⟩
  | outputFull i L hready hfull hop hfetch =>
    exact ⟨nofun, nofun, nofun, fun _ => blockedOnOutput_of_fetched hready hfull hop hfetch, nofun⟩

theorem RunAnswer.truthful {u t : State} {q r : Response} (ha : RunAnswer q r) (hq : stepReply u = .next (q, t)) :
    Truthful r t := by
  cases ha with
  | halted => exact ⟨fun _ => final_of_stepReply hq, nofun, nofun, nofun, nofun⟩
  | response => exact .of_stepReply hq

theorem UntilAnswer.truthful {u w t : State} {q r : Response} (ha : UntilAnswer q w r t)
    (hq : stepReply u = .next (q, w)) : Truthful r t := by
  cases ha with
  | value => exact ⟨nofun, nofun, nofun, nofun, nofun⟩
  | noMoreOutput _ hout => exact ⟨nofun, fun _ => ⟨final_of_stepReply hq, hout⟩, nofun, nofun, nofun⟩
  | response => exact .of_stepReply hq

theorem Truthful.of_runUntilOutput {fuel : Nat} {s t : State} {r : Response}
    (h : runUntilOutput fuel s = some (.next (r, t))) : Truthful r t := by
  rcases runUntilOutput_answer h with ⟨_, _, _, rfl, _⟩ | ⟨_, _, _, _, _, hq, ha⟩
  · exact ⟨nofun, nofun, nofun, nofun, nofun⟩
  · exact ha.truthful hq

/-- A response that reports a block or an error is no progress. -/
theorem not_progressed_of_stuck {q : Response} (h : (∃ b, q = .blocked b) ∨ ∃ f, q = .fatal f) (vm : VmState) :
    q ≠ .progressed vm := by
  rcases h with ⟨b, rfl⟩ | ⟨f, rfl⟩ <;> exact nofun

/-- Settles O59: both loops answer as the step that ends them does, and whether they answer is read off the steps that
lead there (`run_iff`, `untilOutputLoop_iff`), so more fuel changes nothing. -/
theorem runEndsAsItSays : Obligations.RunEndsAsItSays := by
  refine ⟨fun s t fuel r h => ?_, fun s t fuel r h => ?_, fun s fuel hloaded hnone hstopped hout => ?_,
    fun s u t n fuel q hp hq hn => ?_⟩
  · obtain ⟨n, u, q, hn, hp, hq, ha⟩ := run_iff.1 h
    obtain ⟨hhalted, -, hin, hfull, hfatal⟩ := ha.truthful hq
    refine ⟨hhalted, hin, hfull, hfatal, ⟨n, u, q, hp.stepsTo, hq, ?_⟩,
      fun more => run_iff.2 ⟨n, u, q, hn.imp_left (Nat.lt_add_right more), hp, hq, ha⟩⟩
    cases ha with
    | halted => exact .inl ⟨rfl, rfl⟩
    | response _ hno => exact .inr ⟨rfl, hno⟩
  · obtain ⟨-, hmore, hin, -, hfatal⟩ := Truthful.of_runUntilOutput h
    exact ⟨hmore, hin, hfatal, runUntilOutput_stepsTo h, runUntilOutput_add h⟩
  · have hreply := stepReply_of_stopped hloaded hnone hstopped
    rw [transact_of_loaded hloaded]
    exact (runUntilOutput_of_stopped fuel hloaded hnone hstopped hout).trans (congrArg some hreply)
  · have hrun {r : Response} (ha : RunAnswer q r) := run_iff.2 ⟨n, u, q, .inl hn, hp, hq, ha⟩
    refine ⟨?_, fun hstuck => hrun (.response q (not_progressed_of_stuck hstuck)), fun hout => ?_⟩
    · rintro rfl
      exact hrun .halted
    · have huntil {r : Response} {x : State} (ha : UntilAnswer q t r x) :=
        runUntilOutput_of_progressesTo hp hn hout hq ha
      refine ⟨?_, ?_, fun hstuck => huntil (.response q t (not_progressed_of_stuck hstuck))⟩
      · rintro vm v rest rfl hcons
        rw [← State.outPopFront_eq hcons]
        exact huntil (.value vm t v rest hcons)
      · rintro rfl hnil
        exact huntil (.noMoreOutput t hnil)

/-! ### The queues over a transaction (R195, R198, R199, R202, R204) -/

theorem run_queuesAdvance {fuel : Nat} {s t : State} {r : Response} (h : run fuel s = some (.next (r, t))) :
    QueuesAdvance s t := by
  obtain ⟨n, u, q, _, hp, hq, _⟩ := run_iff.1 h
  exact (QueuesAdvance.of_stepsTo hp.stepsTo).trans (.of_step (step_of_stepReply hq))

theorem handedOutputs_runUntilOutput_of_ne {r : Response} (h : ∀ v, r ≠ .value v) :
    handedOutputs .runUntilOutput r = [] := by
  cases r with
  | value v => exact absurd rfl (h v)
  | _ => rfl

/-- The value RUN_UNTIL_OUTPUT answers with, put back, completes an advance of the queues. -/
theorem runUntilOutput_queues {fuel : Nat} {s t : State} {r : Response}
    (h : runUntilOutput fuel s = some (.next (r, t))) :
    t.inQ <:+ s.inQ ∧ s.outQ <+: handedOutputs .runUntilOutput r ++ t.outQ := by
  obtain ⟨n, u, hn, hend⟩ := runUntilOutput_stepsTo h
  obtain ⟨hin, hpre⟩ := QueuesAdvance.of_stepsTo hn
  rcases hend with ⟨v, rfl, hout, ht⟩ | ⟨hno, rfl⟩
  · refine ⟨?_, (hout ▸ hpre : s.outQ <+: v :: t.outQ)⟩
    rw [ht]
    exact hin
  · rw [handedOutputs_runUntilOutput_of_ne hno]
    exact ⟨hin, hpre⟩

/-- The transactions that execute instructions. -/
def Transaction.engine : List Transaction := [.step, .run, .runUntilOutput]

/-- The transactions that execute instructions only take inputs from the front, and only add outputs at the end, of
which RUN_UNTIL_OUTPUT hands the first over. -/
theorem loadedReply_queues_of_engine {fuel : Nat} {tr : Transaction} {s t : State} {r : Response}
    (hengine : tr ∈ Transaction.engine) (h : loadedReply fuel tr s = some (.next (r, t))) :
    acceptedInputs tr r = [] ∧ t.inQ <:+ s.inQ ∧ s.outQ <+: handedOutputs tr r ++ t.outQ := by
  simp only [Transaction.engine, List.mem_cons, List.not_mem_nil, or_false] at hengine
  rcases hengine with rfl | rfl | rfl
  · obtain ⟨hin, hout⟩ := QueuesAdvance.of_step (step_of_stepReply (Option.some.inj h))
    exact ⟨rfl, hin, hout⟩
  · obtain ⟨hin, hout⟩ := run_queuesAdvance h
    exact ⟨rfl, hin, hout⟩
  · exact ⟨rfl, runUntilOutput_queues h⟩

/-- ADD_INPUTS' two ends (R198, R201). -/
theorem addInputs_cases (vs : List Word) (s : State) :
    (s.cfg.inDepth.fits (s.inQ.length + vs.length) = true ∧ addInputs vs s = (.ok, { s with inQ := s.inQ ++ vs })) ∨
    (s.cfg.inDepth.fits (s.inQ.length + vs.length) = false ∧ addInputs vs s = (.inputFull, s)) := by
  cases hfit : s.cfg.inDepth.fits (s.inQ.length + vs.length) with
  | true => exact .inl ⟨rfl, by simp [addInputs, hfit, State.inPush]⟩
  | false => exact .inr ⟨rfl, by simp [addInputs, hfit]⟩

/-- What the host's own transactions leave: both queues, but for what ADD_INPUTS brings and DRAIN_OUTPUTS takes, and the
latch, which they do not answer with either. -/
structure HostEffect (tr : Transaction) (s : State) (r : Response) (t : State) : Prop where
  inQ : s.inQ ++ acceptedInputs tr r = t.inQ
  outQ : s.outQ = handedOutputs tr r ++ t.outQ
  fault : t.fault = s.fault
  not_fatal : ∀ f, r ≠ .fatal f

/-- The transactions that neither load nor execute answer, and have no other effect on the queues and the latch. -/
theorem loadedReply_of_host {tr : Transaction} (s : State) (fuel : Nat) (hnot : tr.isLoad = false)
    (hhost : tr ∉ Transaction.engine) :
    ∃ r t, loadedReply fuel tr s = some (.next (r, t)) ∧ HostEffect tr s r t := by
  cases tr with
  | load => cases hnot
  | step | run | runUntilOutput => simp [Transaction.engine] at hhost
  | addInputs vs =>
    rcases addInputs_cases vs s with ⟨_, heq⟩ | ⟨_, heq⟩ <;> rw [loadedReply, heq]
    · exact ⟨_, _, rfl, rfl, rfl, rfl, nofun⟩
    · exact ⟨_, _, rfl, List.append_nil _, rfl, rfl, nofun⟩
  | drainOutputs => exact ⟨_, _, rfl, List.append_nil _, (List.append_nil _).symm, rfl, nofun⟩
  | isRunning | status => exact ⟨_, _, rfl, List.append_nil _, rfl, rfl, nofun⟩
  | memRead a =>
    rcases hostRead_cases s a with ⟨_, heq⟩ | ⟨_, heq⟩ <;> rw [loadedReply, heq] <;>
      exact ⟨_, _, rfl, List.append_nil _, rfl, rfl, nofun⟩
  | memWrite a v =>
    rcases hostWrite_cases s a v with ⟨_, heq⟩ | ⟨_, heq⟩ <;> rw [loadedReply, heq] <;>
      exact ⟨_, _, rfl, List.append_nil _, rfl, rfl, nofun⟩

/-- Before the first LOAD nothing is queued and nothing is handed over (R212). -/
theorem queues_of_notLoaded (tr : Transaction) :
    acceptedInputs tr .notLoaded = [] ∧ handedOutputs tr .notLoaded = [] := by
  cases tr <;> exact ⟨rfl, rfl⟩

/-- Settles O27: a step has the one effect of its instruction (`exec_queueEffect`), so a run of steps takes inputs from
the front and adds outputs at the end, and the host's own transactions do neither. -/
theorem queuesKeepTheirOrder : Obligations.QueuesKeepTheirOrder := by
  refine ⟨fun s t h => ⟨?_, ?_, ?_, ?_⟩, fun s t fuel tr r h hnot => ?_⟩
  · rcases step_queueEffect h with ⟨hin, _⟩ | ⟨_, u, hfetch, hin | ⟨dst, rfl, v, hcons, hmem, hfault⟩, _⟩
    · exact .inl hin
    · exact .inl hin
    · exact .inr ⟨v, dst, u, hcons, hfetch, hmem, hfault⟩
  · rcases step_queueEffect h with ⟨_, hout⟩ | ⟨_, u, hfetch, _, hout | ⟨a, rfl, hadd, hfault⟩⟩
    · exact .inl hout
    · exact .inl hout
    · exact .inr ⟨a, u, hfetch, hadd, hfault⟩
  · intro v rest dst u hready hfetch hq hnone
    obtain ⟨L, hexec⟩ := exec_of_step hready hfetch h
    obtain ⟨-, ⟨-, hnil | herror⟩ | ⟨w, hcons, hmem, -⟩⟩ := exec_input_queues hexec
    · simp [hq] at hnil
    · exact absurd hnone herror
    · obtain ⟨rfl, rfl⟩ := List.cons.inj (hq.symm.trans hcons)
      exact ⟨rfl, hmem⟩
  · intro a u hready hfetch hroom hnone
    obtain ⟨L, hexec⟩ := exec_of_step hready hfetch h
    obtain ⟨-, ⟨-, hfull | herror⟩ | ⟨hadd, -⟩⟩ := exec_output_queues hexec
    · simp [hroom] at hfull
    · exact absurd hnone herror
    · exact hadd
  · rcases transact_cases h with ⟨_, rfl, rfl⟩ | hreply
    · obtain ⟨hacc, hhand⟩ := queues_of_notLoaded tr
      exact ⟨⟨[], by simp [hacc], .inl rfl⟩, [], by simp [hhand], .inl rfl⟩
    · by_cases hengine : tr ∈ Transaction.engine
      · obtain ⟨hacc, ⟨taken, htaken⟩, added, hadded⟩ := loadedReply_queues_of_engine hengine hreply
        rw [hacc, List.append_nil]
        exact ⟨⟨taken, htaken.symm, .inr hengine⟩, added, hadded, .inr hengine⟩
      · obtain ⟨q, u, hhost, hin, hout, -, -⟩ := loadedReply_of_host s fuel hnot hengine
        cases hhost.symm.trans hreply
        exact ⟨⟨[], hin, .inl rfl⟩, [], (List.append_nil _).trans hout, .inl rfl⟩

/-! ### The latch, refusals and the host's own accesses -/

/-- An accepted LOAD clears the latch (R35, R270). -/
theorem load_fault {snapshot : List Word} {s t : State} (h : load snapshot s = (.ok, t)) :
    t.fault = FaultRecord.clear := by
  unfold load at h
  split at h <;> cases h
  rfl

/-- Settles O12: the gate answers STEP, RUN and RUN_UNTIL_OUTPUT, and no other transaction but LOAD reads or writes the
latch to answer. -/
theorem onlyLoadClearsTheLatch : Obligations.OnlyLoadClearsTheLatch := by
  intro s fuel hloaded hfault
  have hidle : ready s = false := by simp [ready, hfault]
  have hreply := stepReply_of_faulted hloaded hfault
  refine ⟨step_of_not_ready hidle, ?_, ?_, ?_⟩
  · intro tr htr
    rw [transact_of_loaded hloaded]
    simp only [List.mem_cons, List.not_mem_nil, or_false] at htr
    rcases htr with rfl | rfl | rfl
    · exact congrArg some hreply
    · exact (run_of_not_ready hidle fuel).trans (congrArg some hreply)
    · exact (runUntilOutput_of_faulted fuel hloaded hfault).trans (congrArg some hreply)
  · intro tr hstep hrun huntil hnot
    rw [transact_of_loaded hloaded]
    have hhost : tr ∉ Transaction.engine := by simp [Transaction.engine, hstep, hrun, huntil]
    obtain ⟨r, t, heq, -, -, hkept, hno⟩ := loadedReply_of_host s fuel hnot hhost
    exact ⟨r, t, heq, hkept, hno s.fault⟩
  · intro snapshot t h
    rw [transact_load] at h
    exact load_fault (Host.Outcome.next.inj (Option.some.inj h))

/-- Settles O13: the first LOAD is waited for before anything else is looked at, and LOAD checks the length first. -/
theorem refusedTransactionsChangeNothing : Obligations.RefusedTransactionsChangeNothing := by
  refine fun s fuel => ⟨fun tr hloaded hnot => ?_, fun snapshot hlong => ?_⟩
  · simp [transact, hloaded, hnot]
  · rw [transact_load, load, if_neg (Nat.not_le.2 hlong)]

/-- Settles O53: the two ends of ADD_INPUTS, told apart by IN_DEPTH (`Depth.fits`). -/
theorem addInputsAppendsAllOrNone : Obligations.AddInputsAppendsAllOrNone := by
  intro vs s fuel hloaded
  rw [transact_of_loaded hloaded, loadedReply]
  rcases addInputs_cases vs s with ⟨hfit, heq⟩ | ⟨hfit, heq⟩ <;> rw [heq]
  · refine ⟨fun _ => rfl, fun d hd => ⟨fun _ => rfl, fun hlt => ?_⟩⟩
    simp only [hd, Depth.fits, decide_eq_true_eq] at hfit
    omega
  · refine ⟨fun hinf => ?_, fun d hd => ⟨fun hle => ?_, fun _ => rfl⟩⟩
    · simp [hinf, Depth.fits] at hfit
    · simp only [hd, Depth.fits, decide_eq_false_iff_not] at hfit
      omega

/-- Settles O54: `outDrainAll` writes the output queue only, and no gate but the loaded flag stands before it. -/
theorem drainOutputsReturnsThemAll : Obligations.DrainOutputsReturnsThemAll := by
  intro s fuel hloaded
  rw [transact_of_loaded hloaded]
  rfl

theorem addressOk_eq_false_iff (s : State) (a : Int) : addressOk s a = false ↔ a < 0 ∨ s.cfg.memCap ≤ a := by
  rw [← Bool.not_eq_true, addressOk_iff]
  omega

/-- The host's accesses at an illegal address (R51, R208, R209). -/
theorem hostAccess_of_illegal {s : State} {a : Int} (v : Word) (h : addressOk s a = false) :
    hostRead a s = (.addrError (addressError a) a, s) ∧ hostWrite a v s = (.addrError (addressError a) a, s) := by
  simp [hostRead, hostWrite, memWrite, checkAddr_error h]

/-- The host's accesses at a legal address (R52, R53, R208, R209). -/
theorem hostAccess_of_legal {s : State} {a : Int} (v : Word) (h : addressOk s a = true) :
    hostRead a s = (.value (s.mem.read a.toNat), s) ∧ hostWrite a v s = (.ok, s.storeWord a.toNat v) := by
  simp [hostRead, hostWrite, memWrite, checkAddr_ok h]

/-- Settles O55: an illegal address ends both accesses, and under the invariant a legal one at or above
`memLen` reads 0. -/
theorem hostMemoryPort : Obligations.HostMemoryPort := by
  intro s fuel a v hloaded
  rw [transact_of_loaded hloaded, transact_of_loaded hloaded, loadedReply, loadedReply]
  refine ⟨fun hneg => ?_, fun hnonneg hcap => ?_, fun hnonneg hcap hinv => ?_⟩
  · obtain ⟨hread, hwrite⟩ := hostAccess_of_illegal v ((addressOk_eq_false_iff s a).2 (.inl hneg))
    rw [hread, hwrite, addressError, if_pos hneg]
    exact ⟨rfl, rfl⟩
  · obtain ⟨hread, hwrite⟩ := hostAccess_of_illegal v ((addressOk_eq_false_iff s a).2 (.inr hcap))
    rw [hread, hwrite, addressError, if_neg (not_lt.2 hnonneg)]
    exact ⟨rfl, rfl⟩
  · have hs := (State.inv_iff s).1 hinv
    have hcell : s.mem.read a.toNat = if a < s.memLen then s.mem.read a.toNat else 0 := by
      split
      · rfl
      · exact hs.read_of_memLen_le (by omega)
    obtain ⟨hread, hwrite⟩ := hostAccess_of_legal v ((addressOk_iff s a).2 ⟨hnonneg, hcap⟩)
    rw [hread, hwrite, ← hcell]
    exact ⟨rfl, _, rfl, rfl, Memory.read_write_same _ _ _ hs.wf, fun x hx => Memory.read_write_other _ _ _ _ hx⟩

end Sys2Proof.Machine
end

section
/-! The exceptions family (60_exceptions.md) and reset (70_reset_and_hazards.md). A step that does not raise leaves the
latch alone, so an error that is new in the next state was raised by this step, and raising says the whole next state
(`Raised`). -/

namespace Sys2Proof.Machine

/-! ### What a fatal error and a block leave unchanged (R239, R240) -/

section Precise

variable {s t : State}

/-- Raising changes only the latch and the memory's length (R240). -/
theorem Raised.eq_latch_and_length (h : Raised s t) : t = { s with memLen := t.memLen, fault := t.fault } := by
  obtain ⟨k, a, w, L, -, -, -, rfl⟩ := h.eq
  rfl

/-- A step raises or leaves the latch alone: idle, blocks and commits do not write it (R240). -/
theorem step_raised_or_fault_eq (h : step s = .next t) : Raised s t ∨ t.fault = s.fault := by
  rcases stepReply_cases s with ⟨_, r, _, hs⟩ | ⟨_, u, hu, hs⟩ | ⟨_, _, i, L, _, _, _, _, hs⟩
    | ⟨_, _, i, L, _, _, _, _, hs⟩ | ⟨_, u, hu, hs⟩ <;> cases (step_of_stepReply hs).symm.trans h
  · exact .inr rfl
  · exact .inl hu
  · exact .inr rfl
  · exact .inr rfl
  · exact .inr hu.fault

end Precise

/-- Settles O43: an error latched by the step was raised by it, and raising writes the latch and the length only. -/
theorem fatalStepChangesOnlyLatchAndLength : Obligations.FatalStepChangesOnlyLatchAndLength := by
  intro s t h hnone herror
  rcases step_raised_or_fault_eq h with hraised | hsame
  · exact ⟨hraised.eq_latch_and_length, (Grows.of_step h).len_le⟩
  · exact absurd (hsame ▸ hnone) herror

/-- Settles O44: each of the two blocks is one case of `StepAnswer`, with its whole next state and its queue. -/
theorem blockedStepChangesOnlyStateAndLength : Obligations.BlockedStepChangesOnlyStateAndLength := by
  refine fun s t => ⟨fun h => ?_, fun h => ?_⟩ <;> have hle := (Grows.of_step (step_of_stepReply h)).len_le
  · cases stepReply_answer h with
    | noInput L _ hq => exact ⟨rfl, hle, hq⟩
  · cases stepReply_answer h with
    | outputFull i L _ hfull _ _ => exact ⟨rfl, hle, hfull⟩

/-! ### LOAD (R35, R270) -/

/-- Settles O52: LOAD of a snapshot that fits writes every field, and memory is `Memory.ofWords` from address 0. -/
theorem loadSetsEveryElement : Obligations.LoadSetsEveryElement := by
  intro snapshot s fuel hfit
  rw [transact_load, load, if_pos hfit]
  have hread (x : Nat) : (Memory.ofWords 0 snapshot).read x = snapshot.getD x 0 :=
    (Memory.read_ofWords snapshot 0 x).trans (if_pos x.zero_le)
  exact ⟨_, rfl, hread, Memory.wf_ofWords snapshot 0, rfl, rfl, rfl, rfl, rfl, rfl, rfl, rfl, rfl⟩

end Sys2Proof.Machine
end
